-- ==== Sys2Proof/Word.lean ====
section
/-! DEFINITION. The machine's words: bytes, 16-bit words, 12-bit addresses of an instruction, register numbers. -/

namespace Sys2Proof

/-- A byte of memory, a general register or a timer (00_scope.md R7: REG_W, TIMER_W; 20_memory.md R47). -/
abbrev Byte := BitVec 8

/-- A 16-bit word: an instruction word, I, pc, a stack entry (00_scope.md R7: INSN_W, I_W, PC_W, STACK_W). -/
abbrev Word := BitVec 16

/-- The field `nnn` of an instruction (30_encoding.md R64). -/
abbrev Addr12 := BitVec 12

/-- The number of a general register, a field `x` or `y` (30_encoding.md R64; 10_state.md R20: every value is a register). -/
abbrev Reg := Fin 16

/-- The number of a key (10_state.md R33). -/
abbrev Key := Fin 16

end Sys2Proof
end

