-- ==== Sys2Proof/Config.lean ====
section
/-! DEFINITION. What an implementation fixes (the named parameters of 00_scope.md R9) and the free values. -/

namespace Sys2Proof

/-- 42_alu.md R96: whether 8xy5, 8xy6, 8xy7 and 8xyE compute their result from the operands as they were (`latched`)
or from the registers after the flag write (`sequential`). -/
inductive OperandReading where
  | latched
  | sequential
deriving DecidableEq, Repr

/-- 20_memory.md R50: what a program write into the font region does. -/
inductive FontWritePolicy where
  | fault
  | write
deriving DecidableEq, Repr

/-- 44_display.md R117: what happens to sprite bits past the right or bottom edge. -/
inductive SpriteEdge where
  | clip
  | wrap
deriving DecidableEq, Repr

/-- The 80 bytes of the font set (10_state.md R39). -/
abbrev Font := Vector Byte 80

/-- The parameters of 00_scope.md R9 that fix one machine. The two other parameters of R9, `rnd` and `keys`, are inputs. -/
structure Config where
  /-- FONT (10_state.md R40) -/
  font : Font
  /-- VF_OPERAND_READING (42_alu.md R96) -/
  vfReading : OperandReading
  /-- FONT_WRITE_POLICY (20_memory.md R50) -/
  fontWrite : FontWritePolicy
  /-- SPRITE_EDGE (44_display.md R117) -/
  spriteEdge : SpriteEdge
deriving DecidableEq, Repr

/-- The free random bytes (10_state.md R46, decision D29; log 7): an uninterpreted stream, so that a claim about the
n-th byte drawn holds whatever the byte is. -/
opaque Config.freeRnd : Nat → Byte

end Sys2Proof
end

