-- ==== Sys2Proof/Syntax.lean ====
section
/-! DEFINITION. The instructions: one constructor per row of spec/opcode_table.json, in the table's order (30_encoding.md
R84). Every operand's range is its type (R66: unsigned fields), so that no term is ill-formed in its operands. -/

namespace Sys2Proof

/-- The 34 instructions of 30_encoding.md R84. `n` is a count 0..15 (R66). -/
inductive Instr where
  /-- 00E0, 44_display.md R115 -/
  | cls
  /-- 00EE, 41_control_flow.md R85 -/
  | ret
  /-- 1nnn, 41_control_flow.md R86 -/
  | jp (nnn : Addr12)
  /-- 2nnn, 41_control_flow.md R87 -/
  | call (nnn : Addr12)
  /-- 3xkk, 41_control_flow.md R88 -/
  | seVxKk (x : Reg) (kk : Byte)
  /-- 4xkk, 41_control_flow.md R89 -/
  | sneVxKk (x : Reg) (kk : Byte)
  /-- 5xy0, 41_control_flow.md R90 -/
  | seVxVy (x y : Reg)
  /-- 6xkk, 42_alu.md R93 -/
  | ldVxKk (x : Reg) (kk : Byte)
  /-- 7xkk, 42_alu.md R94 -/
  | addVxKk (x : Reg) (kk : Byte)
  /-- 8xy0, 42_alu.md R97 -/
  | ldVxVy (x y : Reg)
  /-- 8xy1, 42_alu.md R98 -/
  | or (x y : Reg)
  /-- 8xy2, 42_alu.md R99 -/
  | and (x y : Reg)
  /-- 8xy3, 42_alu.md R100 -/
  | xor (x y : Reg)
  /-- 8xy4, 42_alu.md R101 -/
  | addVxVy (x y : Reg)
  /-- 8xy5, 42_alu.md R102 -/
  | sub (x y : Reg)
  /-- 8xy6, 42_alu.md R103; `y` is encoded and not read (30_encoding.md R80) -/
  | shr (x y : Reg)
  /-- 8xy7, 42_alu.md R104 -/
  | subn (x y : Reg)
  /-- 8xyE, 42_alu.md R105; `y` is encoded and not read (30_encoding.md R80) -/
  | shl (x y : Reg)
  /-- 9xy0, 41_control_flow.md R91 -/
  | sneVxVy (x y : Reg)
  /-- Annn, 43_index_memory.md R108 -/
  | ldI (nnn : Addr12)
  /-- Bnnn, 41_control_flow.md R92 -/
  | jpV0 (nnn : Addr12)
  /-- Cxkk, 42_alu.md R106 -/
  | rnd (x : Reg) (kk : Byte)
  /-- Dxyn, 44_display.md R116 -/
  | drw (x y : Reg) (n : Fin 16)
  /-- Ex9E, 45_keypad_timers.md R121 -/
  | skp (x : Reg)
  /-- ExA1, 45_keypad_timers.md R122 -/
  | sknp (x : Reg)
  /-- Fx07, 45_keypad_timers.md R123 -/
  | ldVxDt (x : Reg)
  /-- Fx0A, 45_keypad_timers.md R124 -/
  | ldVxK (x : Reg)
  /-- Fx15, 45_keypad_timers.md R125 -/
  | ldDtVx (x : Reg)
  /-- Fx18, 45_keypad_timers.md R126 -/
  | ldStVx (x : Reg)
  /-- Fx1E, 43_index_memory.md R109 -/
  | addIVx (x : Reg)
  /-- Fx29, 43_index_memory.md R110 -/
  | ldFVx (x : Reg)
  /-- Fx33, 43_index_memory.md R111 -/
  | ldBVx (x : Reg)
  /-- Fx55, 43_index_memory.md R112 -/
  | ldMemVx (x : Reg)
  /-- Fx65, 43_index_memory.md R113 -/
  | ldVxMem (x : Reg)
deriving DecidableEq, Repr

/-- The opcode-table identifier of an instruction (30_encoding.md R82, last column). -/
def Instr.mnemonic : Instr → String
  | .cls => "CLS"
  | .ret => "RET"
  | .jp _ => "JP"
  | .call _ => "CALL"
  | .seVxKk _ _ => "SE_VX_KK"
  | .sneVxKk _ _ => "SNE_VX_KK"
  | .seVxVy _ _ => "SE_VX_VY"
  | .ldVxKk _ _ => "LD_VX_KK"
  | .addVxKk _ _ => "ADD_VX_KK"
  | .ldVxVy _ _ => "LD_VX_VY"
  | .or _ _ => "OR"
  | .and _ _ => "AND"
  | .xor _ _ => "XOR"
  | .addVxVy _ _ => "ADD_VX_VY"
  | .sub _ _ => "SUB"
  | .shr _ _ => "SHR"
  | .subn _ _ => "SUBN"
  | .shl _ _ => "SHL"
  | .sneVxVy _ _ => "SNE_VX_VY"
  | .ldI _ => "LD_I"
  | .jpV0 _ => "JP_V0"
  | .rnd _ _ => "RND"
  | .drw _ _ _ => "DRW"
  | .skp _ => "SKP"
  | .sknp _ => "SKNP"
  | .ldVxDt _ => "LD_VX_DT"
  | .ldVxK _ => "LD_VX_K"
  | .ldDtVx _ => "LD_DT_VX"
  | .ldStVx _ => "LD_ST_VX"
  | .addIVx _ => "ADD_I_VX"
  | .ldFVx _ => "LD_F_VX"
  | .ldBVx _ => "LD_B_VX"
  | .ldMemVx _ => "LD_MEM_VX"
  | .ldVxMem _ => "LD_VX_MEM"

end Sys2Proof
end

