-- ==== Sys2Proof/WellFormed.lean ====
section
/-! DEFINITION. The opcode table of 30_encoding.md R84 as data, and the checks that stand before the machine: a word is
an instruction word (R72), a table is unambiguous (R84), a program image fits (20_memory.md R52). The ranges of an
instruction's operands need no check: they are types (Syntax.lean). -/

namespace Sys2Proof

/-- One row of 30_encoding.md R84: a word w is the instruction when (w & mask) = match. -/
structure Row where
  mnemonic : String
  mask : Word
  pattern : Word
deriving DecidableEq, Repr

/-- The rows 1 to 18 of 30_encoding.md R84 (groups 0x0 to 0x8). -/
def opcodeRowsLow : List Row := [
  ⟨"CLS", 0xFFFF, 0x00E0⟩,
  ⟨"RET", 0xFFFF, 0x00EE⟩,
  ⟨"JP", 0xF000, 0x1000⟩,
  ⟨"CALL", 0xF000, 0x2000⟩,
  ⟨"SE_VX_KK", 0xF000, 0x3000⟩,
  ⟨"SNE_VX_KK", 0xF000, 0x4000⟩,
  ⟨"SE_VX_VY", 0xF00F, 0x5000⟩,
  ⟨"LD_VX_KK", 0xF000, 0x6000⟩,
  ⟨"ADD_VX_KK", 0xF000, 0x7000⟩,
  ⟨"LD_VX_VY", 0xF00F, 0x8000⟩,
  ⟨"OR", 0xF00F, 0x8001⟩,
  ⟨"AND", 0xF00F, 0x8002⟩,
  ⟨"XOR", 0xF00F, 0x8003⟩,
  ⟨"ADD_VX_VY", 0xF00F, 0x8004⟩,
  ⟨"SUB", 0xF00F, 0x8005⟩,
  ⟨"SHR", 0xF00F, 0x8006⟩,
  ⟨"SUBN", 0xF00F, 0x8007⟩,
  ⟨"SHL", 0xF00F, 0x800E⟩]

/-- The rows 19 to 34 of 30_encoding.md R84 (groups 0x9 to 0xF). -/
def opcodeRowsHigh : List Row := [
  ⟨"SNE_VX_VY", 0xF00F, 0x9000⟩,
  ⟨"LD_I", 0xF000, 0xA000⟩,
  ⟨"JP_V0", 0xF000, 0xB000⟩,
  ⟨"RND", 0xF000, 0xC000⟩,
  ⟨"DRW", 0xF000, 0xD000⟩,
  ⟨"SKP", 0xF0FF, 0xE09E⟩,
  ⟨"SKNP", 0xF0FF, 0xE0A1⟩,
  ⟨"LD_VX_DT", 0xF0FF, 0xF007⟩,
  ⟨"LD_VX_K", 0xF0FF, 0xF00A⟩,
  ⟨"LD_DT_VX", 0xF0FF, 0xF015⟩,
  ⟨"LD_ST_VX", 0xF0FF, 0xF018⟩,
  ⟨"ADD_I_VX", 0xF0FF, 0xF01E⟩,
  ⟨"LD_F_VX", 0xF0FF, 0xF029⟩,
  ⟨"LD_B_VX", 0xF0FF, 0xF033⟩,
  ⟨"LD_MEM_VX", 0xF0FF, 0xF055⟩,
  ⟨"LD_VX_MEM", 0xF0FF, 0xF065⟩]

/-- The instruction table of 30_encoding.md R84. -/
def opcodeTable : List Row := opcodeRowsLow ++ opcodeRowsHigh

/-- The word is this row's instruction (30_encoding.md R84). -/
def Row.accepts (r : Row) (w : Word) : Bool := (w &&& r.mask) == r.pattern

/-- The word is some row's instruction; any other word is Unrecognized (30_encoding.md R72, R79). -/
def wordWellFormed (w : Word) : Bool := opcodeTable.any (·.accepts w)

/-- Two rows disagree on a bit that both fix, so that no word is both (30_encoding.md R84: "no word matches two rows"). -/
def Row.disjoint (r q : Row) : Bool := (r.mask &&& q.mask &&& (r.pattern ^^^ q.pattern)) != 0

/-- PROG_MAX = 0x1000 - 0x200 bytes, the largest program image (00_scope.md R8). -/
def progMax : Nat := 3584

/-- The image fits between PROG_BASE and the end of memory (00_scope.md R8, 20_memory.md R52). -/
def imageWellFormed (bytes : List Byte) : Bool := bytes.length ≤ progMax

end Sys2Proof
end

