-- ==== Sys2Proof/Decode.lean ====
section
/-! DEFINITION. Decoding (30_encoding.md R72 to R77), total on any bytes and rejecting by name, and after it the encoder
(R65). -/

namespace Sys2Proof

/-! ## The fields of a word (30_encoding.md R64) -/

/-- `n1`, the primary group, w[15:12]. -/
def fieldN1 (w : Word) : BitVec 4 := w.extractLsb' 12 4

/-- `x`, w[11:8]. -/
def fieldX (w : Word) : Reg := (w.extractLsb' 8 4).toFin

/-- `y`, w[7:4]. -/
def fieldY (w : Word) : Reg := (w.extractLsb' 4 4).toFin

/-- `n`, w[3:0]. -/
def fieldN (w : Word) : Fin 16 := (w.extractLsb' 0 4).toFin

/-- `kk`, w[7:0]. -/
def fieldKk (w : Word) : Byte := w.extractLsb' 0 8

/-- `nnn`, w[11:0]. -/
def fieldNnn (w : Word) : Addr12 := w.extractLsb' 0 12

/-! ## The decoder -/

/-- Group 0x0 (30_encoding.md R73): the two fixed words. -/
def decodeGroup0 (w : Word) : Option Instr :=
  if w = 0x00E0#16 then some .cls else if w = 0x00EE#16 then some .ret else none

/-- Group 0x8 (30_encoding.md R75): the low nibble selects. -/
def decodeGroup8 (x y : Reg) (n : Nat) : Option Instr :=
  match n with
  | 0x0 => some (.ldVxVy x y)
  | 0x1 => some (.or x y)
  | 0x2 => some (.and x y)
  | 0x3 => some (.xor x y)
  | 0x4 => some (.addVxVy x y)
  | 0x5 => some (.sub x y)
  | 0x6 => some (.shr x y)
  | 0x7 => some (.subn x y)
  | 0xE => some (.shl x y)
  | _ => none

/-- Group 0xE (30_encoding.md R76): the low byte selects. -/
def decodeGroupE (x : Reg) (kk : Nat) : Option Instr :=
  match kk with
  | 0x9E => some (.skp x)
  | 0xA1 => some (.sknp x)
  | _ => none

/-- Group 0xF (30_encoding.md R77): the low byte selects. -/
def decodeGroupF (x : Reg) (kk : Nat) : Option Instr :=
  match kk with
  | 0x07 => some (.ldVxDt x)
  | 0x0A => some (.ldVxK x)
  | 0x15 => some (.ldDtVx x)
  | 0x18 => some (.ldStVx x)
  | 0x1E => some (.addIVx x)
  | 0x29 => some (.ldFVx x)
  | 0x33 => some (.ldBVx x)
  | 0x55 => some (.ldMemVx x)
  | 0x65 => some (.ldVxMem x)
  | _ => none

/-- The decoder (30_encoding.md R72): dispatch on n1, then R73 to R77; none is Unrecognized. In groups 0x5 and 0x9 the low
nibble must be 0 (R74). -/
def decodeWord (w : Word) : Option Instr :=
  match (fieldN1 w).toNat with
  | 0x0 => decodeGroup0 w
  | 0x1 => some (.jp (fieldNnn w))
  | 0x2 => some (.call (fieldNnn w))
  | 0x3 => some (.seVxKk (fieldX w) (fieldKk w))
  | 0x4 => some (.sneVxKk (fieldX w) (fieldKk w))
  | 0x5 => if fieldN w = 0 then some (.seVxVy (fieldX w) (fieldY w)) else none
  | 0x6 => some (.ldVxKk (fieldX w) (fieldKk w))
  | 0x7 => some (.addVxKk (fieldX w) (fieldKk w))
  | 0x8 => decodeGroup8 (fieldX w) (fieldY w) (fieldN w).val
  | 0x9 => if fieldN w = 0 then some (.sneVxVy (fieldX w) (fieldY w)) else none
  | 0xA => some (.ldI (fieldNnn w))
  | 0xB => some (.jpV0 (fieldNnn w))
  | 0xC => some (.rnd (fieldX w) (fieldKk w))
  | 0xD => some (.drw (fieldX w) (fieldY w) (fieldN w))
  | 0xE => decodeGroupE (fieldX w) (fieldKk w).toNat
  | _ => decodeGroupF (fieldX w) (fieldKk w).toNat

/-- The word whose bytes are `hi` (the lower address) and `lo` (20_memory.md R53: big-endian). -/
def wordOfBytes (hi lo : Byte) : Word := hi ++ lo

/-- The two bytes of a word, the one at the lower address first (20_memory.md R53). -/
def bytesOfWord (w : Word) : List Byte := [w.extractLsb' 8 8, w.extractLsb' 0 8]

/-- Why bytes do not decode. -/
inductive DecodeError where
  /-- the word matches no pattern of its group (30_encoding.md R79) -/
  | unrecognizedOpcode (w : Word)
  /-- fewer than the two bytes of an instruction (30_encoding.md R63) -/
  | truncated
deriving DecidableEq, Repr

/-- Decode the first instruction of a list of bytes and give the bytes after it: always two bytes (30_encoding.md R63, R81). -/
def decode : List Byte → Except DecodeError (Instr × List Byte)
  | hi :: lo :: rest =>
    match decodeWord (wordOfBytes hi lo) with
    | some i => .ok (i, rest)
    | none => .error (.unrecognizedOpcode (wordOfBytes hi lo))
  | _ => .error .truncated

/-! ## The encoder -/

/-- The four bits of a register field or a count. -/
def nibble (x : Fin 16) : BitVec 4 := BitVec.ofFin x

/-- Format A (30_encoding.md R65): Gnnn. -/
def formatA (g : BitVec 4) (nnn : Addr12) : Word := g ++ nnn

/-- Formats XK and XS (30_encoding.md R65): Gxkk, and GxSS with the selector SS in the place of kk. -/
def formatXK (g : BitVec 4) (x : Reg) (kk : Byte) : Word := g ++ nibble x ++ kk

/-- Formats XY, X_ and XYN (30_encoding.md R65): Gxyn, with a fixed selector or the count in the low nibble. -/
def formatXYN (g : BitVec 4) (x y : Reg) (n : BitVec 4) : Word := g ++ nibble x ++ nibble y ++ n

/-- The word of an instruction, from the patterns of 30_encoding.md R65 and R84. -/
def encodeWord : Instr → Word
  | .cls => 0x00E0#16
  | .ret => 0x00EE#16
  | .jp nnn => formatA 0x1#4 nnn
  | .call nnn => formatA 0x2#4 nnn
  | .seVxKk x kk => formatXK 0x3#4 x kk
  | .sneVxKk x kk => formatXK 0x4#4 x kk
  | .seVxVy x y => formatXYN 0x5#4 x y 0x0#4
  | .ldVxKk x kk => formatXK 0x6#4 x kk
  | .addVxKk x kk => formatXK 0x7#4 x kk
  | .ldVxVy x y => formatXYN 0x8#4 x y 0x0#4
  | .or x y => formatXYN 0x8#4 x y 0x1#4
  | .and x y => formatXYN 0x8#4 x y 0x2#4
  | .xor x y => formatXYN 0x8#4 x y 0x3#4
  | .addVxVy x y => formatXYN 0x8#4 x y 0x4#4
  | .sub x y => formatXYN 0x8#4 x y 0x5#4
  | .shr x y => formatXYN 0x8#4 x y 0x6#4
  | .subn x y => formatXYN 0x8#4 x y 0x7#4
  | .shl x y => formatXYN 0x8#4 x y 0xE#4
  | .sneVxVy x y => formatXYN 0x9#4 x y 0x0#4
  | .ldI nnn => formatA 0xA#4 nnn
  | .jpV0 nnn => formatA 0xB#4 nnn
  | .rnd x kk => formatXK 0xC#4 x kk
  | .drw x y n => formatXYN 0xD#4 x y (nibble n)
  | .skp x => formatXK 0xE#4 x 0x9E#8
  | .sknp x => formatXK 0xE#4 x 0xA1#8
  | .ldVxDt x => formatXK 0xF#4 x 0x07#8
  | .ldVxK x => formatXK 0xF#4 x 0x0A#8
  | .ldDtVx x => formatXK 0xF#4 x 0x15#8
  | .ldStVx x => formatXK 0xF#4 x 0x18#8
  | .addIVx x => formatXK 0xF#4 x 0x1E#8
  | .ldFVx x => formatXK 0xF#4 x 0x29#8
  | .ldBVx x => formatXK 0xF#4 x 0x33#8
  | .ldMemVx x => formatXK 0xF#4 x 0x55#8
  | .ldVxMem x => formatXK 0xF#4 x 0x65#8

/-- The bytes of an instruction as memory holds them (30_encoding.md R63). -/
def encode (i : Instr) : List Byte := bytesOfWord (encodeWord i)

/-- The instruction word that an opcode-table row of `nbits` bits with the bits `w` stands for: the bits above `nbits` are
0, and the hardware's instruction is one 16-bit word (30_encoding.md R63). -/
def tableWord (nbits w : Nat) : Word := BitVec.ofNat 16 (w % 2 ^ nbits)

/-- What the decoder reads from such a word, laid out in memory as the hardware stores it. -/
def decodeTableWord (nbits w : Nat) : Option Instr :=
  match decode (bytesOfWord (tableWord nbits w)) with
  | .ok (i, _) => some i
  | .error _ => none

end Sys2Proof
end

