-- ==== Sys2Proof/Machine/Defaults.lean ====
section
/-! DEFINITION. The spec's defaults of the parameters of 00_scope.md R9: the font of 10_state.md R40 and the three settings. -/

namespace Sys2Proof.Machine

/-- 10_state.md R40, digits 0 to 7. PRESUMED: the spec has these bytes from general knowledge (K1; log 1). -/
def fontLow : List Byte := [
  0xF0, 0x90, 0x90, 0x90, 0xF0,
  0x20, 0x60, 0x20, 0x20, 0x70,
  0xF0, 0x10, 0xF0, 0x80, 0xF0,
  0xF0, 0x10, 0xF0, 0x10, 0xF0,
  0x90, 0x90, 0xF0, 0x10, 0x10,
  0xF0, 0x80, 0xF0, 0x10, 0xF0,
  0xF0, 0x80, 0xF0, 0x90, 0xF0,
  0xF0, 0x10, 0x20, 0x40, 0x40]

/-- 10_state.md R40, digits 8 to F. PRESUMED, as `fontLow`. -/
def fontHigh : List Byte := [
  0xF0, 0x90, 0xF0, 0x90, 0xF0,
  0xF0, 0x90, 0xF0, 0x10, 0xF0,
  0xF0, 0x90, 0xF0, 0x90, 0x90,
  0xE0, 0x90, 0xE0, 0x90, 0xE0,
  0xF0, 0x80, 0x80, 0x80, 0xF0,
  0xE0, 0x90, 0x90, 0x90, 0xE0,
  0xF0, 0x80, 0xF0, 0x80, 0xF0,
  0xF0, 0x80, 0xF0, 0x80, 0x80]

/-- The spec default of FONT (10_state.md R40). -/
def defaultFont : Font := ⟨(fontLow ++ fontHigh).toArray, by decide⟩

/-- The spec defaults of 00_scope.md R9 (decisions D6, D21, D16, D10; logs 1 to 4). -/
def defaultConfig : Config :=
  { font := defaultFont, vfReading := .latched, fontWrite := .fault, spriteEdge := .clip }

end Sys2Proof.Machine
end

