-- ==== Sys2Proof/Machine/State.lean ====
section
/-! DEFINITION. The machine's state as plain data (10_state.md), the reset state (R45), and the reasons to stop. -/

namespace Sys2Proof.Machine

/-- Memory (10_state.md R38): the (address, byte) pairs that differ from what an unlisted address reads as, addresses
strictly rising. `Memory.unlisted` and `Memory.wf` are in Machine/Ops.lean. -/
abbrev Memory := List Host.Cell

/-- The framebuffer, `FB[cx][cy]`: 64 columns of 32 cells (10_state.md R34). -/
abbrev Framebuffer := Vector (Vector Bool 32) 64

/-- The error kinds of 60_exceptions.md R129. -/
inductive ErrorKind where
  /-- decode, any unrecognized word (30_encoding.md R79) -/
  | unrecognizedOpcode
  /-- 2nnn with SP = 16 -/
  | stackOverflow
  /-- 00EE with SP = 0 -/
  | stackUnderflow
  /-- Fx29 with V[x] > 15 -/
  | invalidRegisterIndex
  /-- fetch, Dxyn, Fx33, Fx55, Fx65 at an address of 0x1000 or above -/
  | memoryOutOfRange
  /-- Ex9E, ExA1 with V[x] > 15 -/
  | keyIndexOutOfRange
  /-- Fx33, Fx55 into 0x050..0x09F under FONT_WRITE_POLICY = fault -/
  | fontWriteViolation
deriving DecidableEq, Repr

/-- An error record (60_exceptions.md R128): the kind (its code is `ErrorKind.code`), the fetch address `a`, the word `w`
(absent when the fetch itself failed), and the kind's detail. -/
structure ErrorReport where
  kind : ErrorKind
  a : Word
  w : Option Word
  detail : Nat
deriving DecidableEq, Repr

/-- Everything the spec gives the machine (10_state.md), the outputs of the last step, and the model's own fields. -/
structure State where
  /-- V0..VF (10_state.md R20) -/
  v : Vector Byte 16
  /-- I (10_state.md R23) -/
  i : Word
  /-- the program counter (10_state.md R25) -/
  pc : Word
  /-- SP, the number of stack entries in use, 0..16 (10_state.md R29) -/
  sp : Fin 17
  /-- STACK[0]..STACK[15] (10_state.md R29) -/
  stack : Vector Word 16
  /-- DT (10_state.md R31) -/
  dt : Byte
  /-- ST (10_state.md R32) -/
  st : Byte
  /-- KEY[0]..KEY[15], true is pressed; written by the host (10_state.md R33) -/
  key : Vector Bool 16
  /-- FB[cx][cy], true is on (10_state.md R34) -/
  fb : Framebuffer
  /-- frameReady (10_state.md R35) -/
  frameReady : Bool
  /-- the 4096 bytes (10_state.md R38) -/
  mem : Memory
  /-- the error report of the last step, an output the host sees until the next step (10_state.md R44, 60_exceptions.md R128) -/
  err : Option ErrorReport
  /-- the model-only bit of 60_exceptions.md R144: set by a step that reports an error, cleared by no step -/
  faulted : Bool
  /-- the parameters of 00_scope.md R9: not hardware state, changed by no step and no host operation -/
  cfg : Config
  /-- the input `rnd` of the step about to run (10_state.md R42, R46), where the host's byte is known; the step drops it (log 7) -/
  rndIn : Option Byte
  /-- the model's own counter of free random bytes drawn (log 7) -/
  draws : Nat
deriving DecidableEq, Repr

/-- Reasons to stop with a fault: there is none. Every error of the spec is reported by a step that goes on
(60_exceptions.md R131, R132), and the core has no halt (70_reset_and_hazards.md R150), so no instruction raises one; safe
and unsafe alike do not arise (log 21). -/
inductive Fault where
deriving DecidableEq, Repr

/-- Reasons for which the model gives no next state. -/
inductive Refusal where
  /-- an instruction without a meaning yet, raised by exec's arm of that instruction: no arm raises it now; safe -/
  | notModelled (mnemonic : String)
  /-- the host's `load` of an image over 3584 bytes (20_memory.md R52: refused, changes no state), raised by no
  instruction; safe -/
  | imageTooLarge (length : Nat)
deriving DecidableEq, Repr

/-- The state after `reset()` (10_state.md R45) of a machine with the spec's default parameters. Memory lists nothing:
`Memory.unlisted` reads FONT in 0x050..0x09F and 0x00 elsewhere. -/
def State.reset : State where
  v := Vector.replicate 16 0x00#8
  i := 0x000#16
  pc := 0x200#16
  sp := 0
  stack := Vector.replicate 16 0x0000#16
  dt := 0x00#8
  st := 0x00#8
  key := Vector.replicate 16 false
  fb := Vector.replicate 64 (Vector.replicate 32 false)
  frameReady := false
  mem := []
  err := none
  faulted := false
  cfg := defaultConfig
  rndIn := none
  draws := 0

end Sys2Proof.Machine
end

