-- ==== Sys2Proof/Machine/Ops.lean ====
section
/-! DEFINITION. The named operations over memory, registers, stack and framebuffer, and reporting an error: the ONE shared
operation that takes what the spec has in the place of an exception. There is no return from one (60_exceptions.md R135). -/

namespace Sys2Proof.Machine

/-! ## Memory (20_memory.md R47 to R51) -/

/-- MEM_SIZE (00_scope.md R7): the first address that is not memory. -/
def memSize : Nat := 0x1000

/-- The address is in the font region 0x050..0x09F (10_state.md R39). -/
def inFont (a : Nat) : Bool := 0x050 ≤ a ∧ a < 0x0A0

/-- The address is not memory (20_memory.md R47, R48). -/
def outOfRange (a : Nat) : Bool := 0xFFF < a

/-- What an address that memory does not list reads as: the reset contents of 10_state.md R45. -/
def Memory.unlisted (font : Font) (a : Nat) : Byte :=
  if h : 0x050 ≤ a ∧ a < 0x0A0 then font[a - 0x050] else 0x00#8

/-- MemRead(a, 1) (20_memory.md R47). -/
def Memory.read (font : Font) : Memory → Nat → Byte
  | [], a => Memory.unlisted font a
  | (b, u) :: m, a => if a = b then u else Memory.read font m a

/-- List `v` at `a`, in the place its address has. -/
def Memory.insert (a : Nat) (v : Byte) : Memory → Memory
  | [] => [(a, v)]
  | (b, u) :: m =>
    if a < b then (a, v) :: (b, u) :: m else if a = b then (a, v) :: m else (b, u) :: Memory.insert a v m

/-- List nothing at `a`. -/
def Memory.erase (a : Nat) : Memory → Memory
  | [] => []
  | (b, u) :: m => if a = b then Memory.erase a m else (b, u) :: Memory.erase a m

/-- MemWrite(a, 1, v) (20_memory.md R47): an address that is not memory takes nothing; a byte equal to the reset contents is
not listed. -/
def Memory.write (font : Font) (m : Memory) (a : Nat) (v : Byte) : Memory :=
  if a < memSize then if v = Memory.unlisted font a then m.erase a else m.insert a v else m

/-- The canonical form: addresses strictly rising and below 0x1000, no entry equal to what its address would read as unlisted. -/
abbrev Memory.wf (font : Font) (m : Memory) : Prop :=
  m.Pairwise (fun c d => c.1 < d.1) ∧ ∀ c ∈ m, c.1 < memSize ∧ c.2 ≠ Memory.unlisted font c.1

/-- The byte at an address of the state's memory. -/
def State.readByte (s : State) (a : Nat) : Byte := Memory.read s.cfg.font s.mem a

/-- Store a byte; no check is made here. -/
def State.writeByte (s : State) (a : Nat) (v : Byte) : State := { s with mem := Memory.write s.cfg.font s.mem a v }

/-- Store bytes from `base` upwards. -/
def State.writeBytes (s : State) (base : Nat) : List Byte → State
  | [] => s
  | b :: bs => State.writeBytes (s.writeByte base b) (base + 1) bs

/-- The big-endian word at `a`, `a + 1` (20_memory.md R53). -/
def State.readWord (s : State) (a : Nat) : Word := wordOfBytes (s.readByte a) (s.readByte (a + 1))

/-- Store a word at `a`, `a + 1`, big-endian (20_memory.md R53). -/
def State.writeWord (s : State) (a : Nat) (w : Word) : State := s.writeBytes a (bytesOfWord w)

/-- The `n` addresses of an access from `base`: mathematical sums that never wrap (20_memory.md R49). -/
def accessAddrs (base n : Nat) : List Nat := (List.range n).map (base + ·)

/-- The check of a read: the first address that is not memory (20_memory.md R47, R49). -/
def readError (addrs : List Nat) : Option (ErrorKind × Nat) :=
  (addrs.find? outOfRange).map fun a => (.memoryOutOfRange, a)

/-- The check of a write: the range of every byte, then under FONT_WRITE_POLICY = fault the font protection of every byte,
the lowest failing byte first (20_memory.md R49, R50, 60_exceptions.md R133). -/
def writeError (policy : FontWritePolicy) (addrs : List Nat) : Option (ErrorKind × Nat) :=
  match readError addrs, policy with
  | some e, _ => some e
  | none, .fault => (addrs.find? inFont).map fun a => (.fontWriteViolation, a)
  | none, .write => none

/-! ## Registers (10_state.md R20, R25, R29) -/

/-- VF, the flag register (10_state.md R21). -/
def vf : Reg := 0xF

/-- V[x]. -/
def State.getV (s : State) (x : Reg) : Byte := s.v.get x

/-- V[x] <- b: no register discards a write (10_state.md R20, R21). -/
def State.setV (s : State) (x : Reg) (b : Byte) : State := { s with v := s.v.set x.val b x.isLt }

/-- pc <- pc + 2 where the condition holds: the skip of 10_state.md R26. -/
def State.skipIf (s : State) (c : Bool) : State := if c then { s with pc := s.pc + 2 } else s

/-! ## Framebuffer (10_state.md R34) -/

/-- FB[cx][cy]. -/
def Framebuffer.cell (fb : Framebuffer) (cx : Fin 64) (cy : Fin 32) : Bool := (fb.get cx).get cy

/-- FB[cx][cy] <- FB[cx][cy] xor 1. -/
def Framebuffer.toggle (fb : Framebuffer) (cx : Fin 64) (cy : Fin 32) : Framebuffer :=
  fb.set cx.val ((fb.get cx).set cy.val (!fb.cell cx cy) cy.isLt) cx.isLt

/-- Every cell off. -/
def Framebuffer.clear : Framebuffer := Vector.replicate 64 (Vector.replicate 32 false)

/-! ## The random byte (10_state.md R46) -/

/-- The random byte of this step: the host's, where it is known, else a free one (log 7). -/
def State.rndByte (s : State) : Byte :=
  match s.rndIn with
  | some b => b
  | none => Config.freeRnd s.draws

/-- The byte is consumed (42_alu.md R106: one byte per execution). -/
def State.takeRnd (s : State) : State := { s with rndIn := none, draws := s.draws + 1 }

/-! ## Errors (60_exceptions.md R128 to R133) -/

/-- The codes of 60_exceptions.md R129. -/
def ErrorKind.code : ErrorKind → Nat
  | .unrecognizedOpcode => 1
  | .stackOverflow => 2
  | .stackUnderflow => 3
  | .invalidRegisterIndex => 4
  | .memoryOutOfRange => 5
  | .keyIndexOutOfRange => 6
  | .fontWriteViolation => 7

/-- The code of a step's report: 0 is no error (60_exceptions.md R129). -/
def errorCode : Option ErrorReport → Nat
  | none => 0
  | some e => e.kind.code

/-- `raise E(detail)` (00_scope.md R12, 60_exceptions.md R130, R131): nothing is written but the report and the model-only
bit of R144. During an instruction pc is the fetch address plus 2 (10_state.md R25), and every check precedes every write,
so the fetched word still stands there (log 9). -/
def raise (kind : ErrorKind) (detail : Nat) (s : State) : State :=
  { s with
    err := some { kind := kind, a := s.pc - 2, w := some (s.readWord (s.pc - 2).toNat), detail := detail }
    faulted := true }

/-- The fetch's own error (30_encoding.md R68): no word, pc as it is, the first address that is not memory. -/
def raiseFetch (s : State) : State :=
  { s with
    err := some { kind := .memoryOutOfRange, a := s.pc, w := none, detail := max s.pc.toNat 0x1000 }
    faulted := true }

/-- An instruction whose checks come before all its writes: the error of the first check that fails, else the effect. -/
def raiseOr (check : Option (ErrorKind × Nat)) (s effect : State) : State :=
  match check with
  | some (kind, detail) => raise kind detail s
  | none => effect

/-- What a meaning answers. -/
abbrev Result := Host.Outcome State Fault Refusal

end Sys2Proof.Machine
end

