-- ==== Sys2Proof/Machine/Operands.lean ====
section
/-! DEFINITION. The operand forms (30_encoding.md R66): immediate addresses, addresses relative to I, glyph addresses,
register ranges, decimal digits, key numbers, sprite cells. -/

namespace Sys2Proof.Machine

/-- zext_16(nnn) (30_encoding.md R66). -/
def zext16 (nnn : Addr12) : Word := nnn.setWidth 16

/-- nnn + V0, the full 16-bit sum (41_control_flow.md R92). -/
def offsetTarget (nnn : Addr12) (v0 : Byte) : Word := zext16 nnn + v0.setWidth 16

/-- (I + V[x]) mod 4096 (43_index_memory.md R109). -/
def indexSum (i : Word) (b : Byte) : Word := BitVec.ofNat 16 ((i.toNat + b.toNat) % 4096)

/-- 0x050 + 5 x d, the glyph of digit d (43_index_memory.md R110). -/
def glyphAddr (d : Nat) : Word := BitVec.ofNat 16 (0x050 + 5 * d)

/-- The addresses I + 0 .. I + n - 1 (20_memory.md R49). -/
def State.indexAddrs (s : State) (n : Nat) : List Nat := accessAddrs s.i.toNat n

/-- The registers V[0..x], inclusive, in order (43_index_memory.md R112, R113). -/
def regsUpTo (x : Reg) : List Reg := (List.finRange 16).filter (· ≤ x)

/-- Hundreds, tens, ones (43_index_memory.md R111). -/
def bcdDigits (b : Byte) : List Byte :=
  [BitVec.ofNat 8 (b.toNat / 100), BitVec.ofNat 8 (b.toNat / 10 % 10), BitVec.ofNat 8 (b.toNat % 10)]

/-- The key that a register's value names, none above 15 (45_keypad_timers.md R121). -/
def keyOf (b : Byte) : Option Key := if h : b.toNat < 16 then some ⟨b.toNat, h⟩ else none

/-- The lowest pressed key (45_keypad_timers.md R124). -/
def lowestPressed (key : Vector Bool 16) : Option Key := (List.finRange 16).find? (key.get ·)

/-- The cell of sprite bit (r, c) from the base position (x0, y0): none where SPRITE_EDGE = clip leaves the bit out
(44_display.md R117). -/
def spriteCell (edge : SpriteEdge) (x0 y0 r c : Nat) : Option (Fin 64 × Fin 32) :=
  match edge with
  | .clip => if h : x0 + c < 64 ∧ y0 + r < 32 then some (⟨x0 + c, h.1⟩, ⟨y0 + r, h.2⟩) else none
  | .wrap => some (⟨(x0 + c) % 64, Nat.mod_lt _ (by decide)⟩, ⟨(y0 + r) % 32, Nat.mod_lt _ (by decide)⟩)

end Sys2Proof.Machine
end

