-- ==== Sys2Proof/Machine/Flags.lean ====
section
/-! DEFINITION. The flag computations (42_alu.md R95, R96, R107) and the order in which an ALU instruction writes its result
and VF. frameReady (10_state.md R35) and the collision flag (44_display.md R118) are written in Display.lean. -/

namespace Sys2Proof.Machine

/-- A flag as VF holds it: 1 or 0. -/
def flag (c : Bool) : Byte := if c then 0x01#8 else 0x00#8

/-- Carry of a + b: the 9-bit sum exceeds 255 (42_alu.md R101). -/
def carry (a b : Byte) : Bool := 255 < a.toNat + b.toNat

/-- a > b, strictly (42_alu.md R102, R104). -/
def above (a b : Byte) : Bool := b.toNat < a.toNat

/-- Bit 0, the bit that a right shift moves out (42_alu.md R103). -/
def lowBit (a : Byte) : Bool := a.getLsbD 0

/-- Bit 7, the bit that a left shift moves out (42_alu.md R105). -/
def highBit (a : Byte) : Bool := a.getLsbD 7

/-- 8xy4's order (42_alu.md R95): the result first, the flag last, both from the operands as they were. -/
def resultThenFlag (x : Reg) (result : Byte) (c : Bool) (s : State) : State := (s.setV x result).setV vf (flag c)

/-- The order of 8xy5, 8xy6, 8xy7 and 8xyE (42_alu.md R95): the flag first, from the operands as they were; then the result,
from the operands as they were (`latched`) or as they stand after the flag write (`sequential`, R96). -/
def flagThenResult (x y : Reg) (c : Byte → Byte → Bool) (op : Byte → Byte → Byte) (s : State) : State :=
  let flagged := s.setV vf (flag (c (s.getV x) (s.getV y)))
  match s.cfg.vfReading with
  | .latched => flagged.setV x (op (s.getV x) (s.getV y))
  | .sequential => flagged.setV x (op (flagged.getV x) (flagged.getV y))

end Sys2Proof.Machine
end

