-- ==== Sys2Proof/Machine/Cycle.lean ====
section
/-! DEFINITION. The substeps of a step around the instruction (30_encoding.md R67 to R71). -/

namespace Sys2Proof.Machine

/-- The fetch reads memory only (30_encoding.md R68): pc is at most 0xFFE. -/
def State.fetchable (s : State) : Bool := s.pc.toNat ≤ 0xFFE

/-- The fetched word (30_encoding.md R68). -/
def State.fetchWord (s : State) : Word := s.readWord s.pc.toNat

/-- The state in which the instruction executes: this step has reported nothing yet, and pc has advanced by 2
(30_encoding.md R67, R69). -/
def State.fetched (s : State) : State := { s with err := none, pc := s.pc + 2 }

/-- The timer decrement (30_encoding.md R71): by 1 where the timer is above 0. -/
def tick (t : Byte) : Byte := if t = 0x00#8 then 0x00#8 else t - 1

/-- The end of a step: both timers tick (30_encoding.md R71), and the step's random byte is gone (10_state.md R46). -/
def State.endStep (s : State) : State := { s with dt := tick s.dt, st := tick s.st, rndIn := none }

/-- The end of a step after an instruction. -/
def retire : Result → Result
  | .next s => .next s.endStep
  | .fault r => .fault r
  | .refused r => .refused r

/-- A step whose word is unrecognized (30_encoding.md R79): reported, with the word as detail. -/
def stepUnrecognized (s : State) : State := (raise .unrecognizedOpcode s.fetchWord.toNat s.fetched).endStep

/-- A step whose fetch is out of range (30_encoding.md R68): pc stays, the timers tick. -/
def stepFetchError (s : State) : State := (raiseFetch s).endStep

/-- Store a word where the next step fetches, moving a pc that cannot be fetched at to PROG_BASE. -/
def State.placeFetchWord (s : State) (w : Word) : State :=
  if s.fetchable then s.writeWord s.pc.toNat w else { s with pc := 0x200#16 }.writeWord 0x200 w

end Sys2Proof.Machine
end

