-- ==== Sys2Proof/Machine/Alu.lean ====
section
/-! DEFINITION. Register loads, arithmetic and random (42_alu.md). No instruction of this file raises an error. -/

namespace Sys2Proof.Machine

/-- LD Vx, byte (42_alu.md R93). -/
def execLdVxKk (x : Reg) (kk : Byte) (s : State) : Result := .next (s.setV x kk)

/-- ADD Vx, byte (42_alu.md R94): modulo 256, no flag. -/
def execAddVxKk (x : Reg) (kk : Byte) (s : State) : Result := .next (s.setV x (s.getV x + kk))

/-- LD Vx, Vy (42_alu.md R97). -/
def execLdVxVy (x y : Reg) (s : State) : Result := .next (s.setV x (s.getV y))

/-- OR Vx, Vy (42_alu.md R98): no flag. -/
def execOr (x y : Reg) (s : State) : Result := .next (s.setV x (s.getV x ||| s.getV y))

/-- AND Vx, Vy (42_alu.md R99): no flag. -/
def execAnd (x y : Reg) (s : State) : Result := .next (s.setV x (s.getV x &&& s.getV y))

/-- XOR Vx, Vy (42_alu.md R100): no flag. -/
def execXor (x y : Reg) (s : State) : Result := .next (s.setV x (s.getV x ^^^ s.getV y))

/-- ADD Vx, Vy (42_alu.md R101): the result, then VF = carry. -/
def execAddVxVy (x y : Reg) (s : State) : Result :=
  .next (resultThenFlag x (s.getV x + s.getV y) (carry (s.getV x) (s.getV y)) s)

/-- SUB Vx, Vy (42_alu.md R102): VF = (V[x] > V[y]), then V[x] - V[y] modulo 256. -/
def execSub (x y : Reg) (s : State) : Result := .next (flagThenResult x y above (fun a b => a - b) s)

/-- SHR Vx (42_alu.md R103): VF = bit 0, then V[x] >> 1; `y` is not read. -/
def execShr (x _y : Reg) (s : State) : Result := .next (flagThenResult x x (fun a _ => lowBit a) (fun a _ => a >>> 1) s)

/-- SUBN Vx, Vy (42_alu.md R104): VF = (V[y] > V[x]), then V[y] - V[x] modulo 256. -/
def execSubn (x y : Reg) (s : State) : Result := .next (flagThenResult x y (fun a b => above b a) (fun a b => b - a) s)

/-- SHL Vx (42_alu.md R105): VF = bit 7, then V[x] << 1 modulo 256; `y` is not read. -/
def execShl (x _y : Reg) (s : State) : Result := .next (flagThenResult x x (fun a _ => highBit a) (fun a _ => a <<< 1) s)

/-- RND Vx, byte (42_alu.md R106): the step's random byte AND kk; the byte is consumed. -/
def execRnd (x : Reg) (kk : Byte) (s : State) : Result := .next (s.takeRnd.setV x (s.rndByte &&& kk))

end Sys2Proof.Machine
end

