-- ==== Sys2Proof/Machine/ControlFlow.lean ====
section
/-! DEFINITION. Control flow (41_control_flow.md). When a meaning starts, pc is the fetch address plus 2 (10_state.md R25). -/

namespace Sys2Proof.Machine

/-- RET (41_control_flow.md R85): decrement, then load; StackUnderflow when SP = 0. -/
def execRet (s : State) : Result :=
  if s.sp.val = 0 then .next (raise .stackUnderflow s.sp.val s)
  else .next { s with sp := s.sp - 1, pc := s.stack[s.sp.val - 1]'(by omega) }

/-- JP addr (41_control_flow.md R86). -/
def execJp (nnn : Addr12) (s : State) : Result := .next { s with pc := zext16 nnn }

/-- CALL addr (41_control_flow.md R87): store, then increment; StackOverflow when SP = 16. -/
def execCall (nnn : Addr12) (s : State) : Result :=
  if h : s.sp.val = 16 then .next (raise .stackOverflow s.sp.val s)
  else .next { s with stack := s.stack.set s.sp.val s.pc (by omega), sp := s.sp + 1, pc := zext16 nnn }

/-- SE Vx, byte (41_control_flow.md R88). -/
def execSeVxKk (x : Reg) (kk : Byte) (s : State) : Result := .next (s.skipIf (s.getV x == kk))

/-- SNE Vx, byte (41_control_flow.md R89). -/
def execSneVxKk (x : Reg) (kk : Byte) (s : State) : Result := .next (s.skipIf (s.getV x != kk))

/-- SE Vx, Vy (41_control_flow.md R90). -/
def execSeVxVy (x y : Reg) (s : State) : Result := .next (s.skipIf (s.getV x == s.getV y))

/-- SNE Vx, Vy (41_control_flow.md R91). -/
def execSneVxVy (x y : Reg) (s : State) : Result := .next (s.skipIf (s.getV x != s.getV y))

/-- JP V0, addr (41_control_flow.md R92). -/
def execJpV0 (nnn : Addr12) (s : State) : Result := .next { s with pc := offsetTarget nnn (s.getV 0) }

end Sys2Proof.Machine
end

