-- ==== Sys2Proof/Machine/Display.lean ====
section
/-! DEFINITION. The display and the sprite engine (44_display.md). -/

namespace Sys2Proof.Machine

/-- The framebuffer while a sprite is drawn, with the collision seen so far (44_display.md R116, `coll`). -/
structure Canvas where
  fb : Framebuffer
  coll : Bool
deriving DecidableEq, Repr

/-- One sprite bit that is set, at its cell: an on cell is a collision, the cell is toggled (44_display.md R116). -/
def Canvas.xorCell (k : Canvas) : Option (Fin 64 × Fin 32) → Canvas
  | some (cx, cy) => { fb := k.fb.toggle cx cy, coll := k.coll || k.fb.cell cx cy }
  | none => k

/-- The eight bits of row `r`, column c being bit 7 - c (44_display.md R117; PRESUMED by the spec, decision D9; log 11). -/
def drawRow (edge : SpriteEdge) (x0 y0 r : Nat) (b : Byte) (k : Canvas) : Canvas :=
  (List.range 8).foldl (fun k c => if b.getLsbD (7 - c) then k.xorCell (spriteCell edge x0 y0 r c) else k) k

/-- The rows of a sprite from row `r` down (44_display.md R116). -/
def drawRows (edge : SpriteEdge) (x0 y0 : Nat) : Nat → List Byte → Canvas → Canvas
  | _, [], k => k
  | r, b :: bs, k => drawRows edge x0 y0 (r + 1) bs (drawRow edge x0 y0 r b k)

/-- The sprite's `n` bytes, memory[I .. I + n - 1] (44_display.md R116). -/
def State.spriteBytes (s : State) (n : Nat) : List Byte := (s.indexAddrs n).map s.readByte

/-- What a draw at base position (V[x] mod 64, V[y] mod 32) leaves (44_display.md R116, R117). -/
def State.drawn (s : State) (x y : Reg) (n : Nat) : Canvas :=
  drawRows s.cfg.spriteEdge ((s.getV x).toNat % 64) ((s.getV y).toNat % 32) 0 (s.spriteBytes n) { fb := s.fb, coll := false }

/-- CLS (44_display.md R115): neither VF nor frameReady is written. -/
def execCls (s : State) : Result := .next { s with fb := Framebuffer.clear }

/-- DRW Vx, Vy, nibble (44_display.md R116): the cells, then VF = collision and frameReady. -/
def execDrw (x y : Reg) (n : Fin 16) (s : State) : Result :=
  .next (raiseOr (readError (s.indexAddrs n.val)) s
    ({ s with fb := (s.drawn x y n.val).fb, frameReady := true }.setV vf (flag (s.drawn x y n.val).coll)))

end Sys2Proof.Machine
end

