-- ==== Sys2Proof/Machine/IndexMemory.lean ====
section
/-! DEFINITION. The index register and memory (43_index_memory.md). -/

namespace Sys2Proof.Machine

/-- LD I, addr (43_index_memory.md R108). -/
def execLdI (nnn : Addr12) (s : State) : Result := .next { s with i := zext16 nnn }

/-- ADD I, Vx (43_index_memory.md R109): modulo 4096, no flag. -/
def execAddIVx (x : Reg) (s : State) : Result := .next { s with i := indexSum s.i (s.getV x) }

/-- LD F, Vx (43_index_memory.md R110): InvalidRegisterIndex where V[x] > 15, with I unchanged. -/
def execLdFVx (x : Reg) (s : State) : Result :=
  if 15 < (s.getV x).toNat then .next (raise .invalidRegisterIndex (s.getV x).toNat s)
  else .next { s with i := glyphAddr (s.getV x).toNat }

/-- LD B, Vx (43_index_memory.md R111): the three decimal digits at I, I + 1, I + 2. -/
def execLdBVx (x : Reg) (s : State) : Result :=
  .next (raiseOr (writeError s.cfg.fontWrite (s.indexAddrs 3)) s (s.writeBytes s.i.toNat (bcdDigits (s.getV x))))

/-- LD [I], Vx (43_index_memory.md R112): V[0..x] to memory from I; I is unchanged. -/
def execLdMemVx (x : Reg) (s : State) : Result :=
  .next (raiseOr (writeError s.cfg.fontWrite (s.indexAddrs (x.val + 1))) s
    (s.writeBytes s.i.toNat ((regsUpTo x).map s.getV)))

/-- LD Vx, [I] (43_index_memory.md R113): memory from I to V[0..x]; I is unchanged. -/
def execLdVxMem (x : Reg) (s : State) : Result :=
  .next (raiseOr (readError (s.indexAddrs (x.val + 1))) s
    ((regsUpTo x).foldl (fun t r => t.setV r (s.readByte (s.i.toNat + r.val))) s))

end Sys2Proof.Machine
end

