-- ==== Sys2Proof/Machine/KeypadTimers.lean ====
section
/-! DEFINITION. The keypad and the timers (45_keypad_timers.md). The timers tick after the instruction (Cycle.lean). -/

namespace Sys2Proof.Machine

/-- Skip by the state of the key that V[x] names; KeyIndexOutOfRange where V[x] > 15 (45_keypad_timers.md R121, R122). -/
def skipOnKey (x : Reg) (pressed : Bool) (s : State) : State :=
  match keyOf (s.getV x) with
  | some k => s.skipIf (s.key.get k == pressed)
  | none => raise .keyIndexOutOfRange (s.getV x).toNat s

/-- SKP Vx (45_keypad_timers.md R121). -/
def execSkp (x : Reg) (s : State) : Result := .next (skipOnKey x true s)

/-- SKNP Vx (45_keypad_timers.md R122). -/
def execSknp (x : Reg) (s : State) : Result := .next (skipOnKey x false s)

/-- LD Vx, DT (45_keypad_timers.md R123): DT before this step's decrement. -/
def execLdVxDt (x : Reg) (s : State) : Result := .next (s.setV x s.dt)

/-- LD Vx, K (45_keypad_timers.md R124): the lowest pressed key, or the stall, which moves pc back to the fetch address. -/
def execLdVxK (x : Reg) (s : State) : Result :=
  match lowestPressed s.key with
  | some k => .next (s.setV x (BitVec.ofNat 8 k.val))
  | none => .next { s with pc := s.pc - 2 }

/-- LD DT, Vx (45_keypad_timers.md R125). -/
def execLdDtVx (x : Reg) (s : State) : Result := .next { s with dt := s.getV x }

/-- LD ST, Vx (45_keypad_timers.md R126). -/
def execLdStVx (x : Reg) (s : State) : Result := .next { s with st := s.getV x }

end Sys2Proof.Machine
end

