-- ==== Sys2Proof/Machine/Step.lean ====
section
/-! DEFINITION. The step (30_encoding.md R67): fetch, advance, decode and execute, timer decrement. -/

namespace Sys2Proof.Machine

/-- One step. It always answers a next state: an error is reported by a step that goes on (60_exceptions.md R131). -/
def step (s : State) : Host.Outcome State Fault Refusal :=
  if s.fetchable then
    match decodeWord s.fetchWord with
    | some i => retire (exec i s.fetched)
    | none => .next (stepUnrecognized s)
  else .next (stepFetchError s)

/-- The instruction word of an opcode-table row stored where the next step fetches it: big-endian at pc, or at 0x200 with pc
moved there where pc is beyond memory (log 13). -/
def State.withFetchWord (s : State) (nbits w : Nat) : State := s.placeFetchWord (tableWord nbits w)

end Sys2Proof.Machine
end

