-- ==== Sys2Proof/Machine/HostOps.lean ====
section
/-! DEFINITION. The operations the host performs between steps (10_state.md R42, R43) and the outputs it reads (R44). -/

namespace Sys2Proof.Machine

/-- `reset()` (70_reset_and_hazards.md R145): every piece of state to its reset value, whatever it was. The machine's
parameters stay, and the free random bytes go on (log 7). -/
def State.hostReset (s : State) : State := { State.reset with cfg := s.cfg, draws := s.draws }

/-- `load(bytes)` (20_memory.md R52): verbatim from 0x200; an image that does not fit is refused. -/
def State.load (bytes : List Byte) (s : State) : Result :=
  if imageWellFormed bytes then .next (s.writeBytes 0x200 bytes) else .refused (.imageTooLarge bytes.length)

/-- `step(rnd)` (10_state.md R42): one step with this random byte. -/
def stepRnd (rnd : Byte) (s : State) : Result := step { s with rndIn := some rnd }

/-- `setKey(k, b)` (10_state.md R42): there is no key above 15. -/
def State.setKey (s : State) (k : Key) (b : Bool) : State := { s with key := s.key.set k.val b k.isLt }

/-- `clearFrameReady()` (10_state.md R42). -/
def State.clearFrameReady (s : State) : State := { s with frameReady := false }

/-- `readFramebuffer()` (10_state.md R42). -/
def State.readFramebuffer (s : State) : Framebuffer := s.fb

/-- `readFrameReady()` (10_state.md R42). -/
def State.readFrameReady (s : State) : Bool := s.frameReady

/-- `soundActive` = (ST != 0) (10_state.md R32, R44). -/
def State.soundActive (s : State) : Bool := s.st != 0x00#8

/-- `readSound()` (10_state.md R42): ST and soundActive. -/
def State.readSound (s : State) : Byte × Bool := (s.st, s.soundActive)

/-- The error report of the last step (10_state.md R44, 60_exceptions.md R128). -/
def State.errorReport (s : State) : Option ErrorReport := s.err

/-- A host operation that changes state (10_state.md R42). -/
inductive HostOp where
  | reset
  | load (bytes : List Byte)
  | step (rnd : Byte)
  | setKey (k : Key) (b : Bool)
  | clearFrameReady
deriving DecidableEq, Repr

/-- The effect of one host operation: atomic, never within a step (10_state.md R43). -/
def State.apply (s : State) : HostOp → Result
  | .reset => .next s.hostReset
  | .load bytes => s.load bytes
  | .step rnd => stepRnd rnd s
  | .setKey k b => .next (s.setKey k b)
  | .clearFrameReady => .next s.clearFrameReady

/-- A sequence of host operations in order (20_memory.md R62). A refused operation changes no state and the sequence goes
on (R52). -/
def State.applyAll (s : State) : List HostOp → State
  | [] => s
  | op :: ops =>
    match s.apply op with
    | .next t => State.applyAll t ops
    | _ => State.applyAll s ops

end Sys2Proof.Machine
end

