-- ==== Sys2Proof/Safety.lean ====
section
/-! DEFINITION. The terms claims use: what a safe run is (60_exceptions.md R144), the launch state, the end of a run, the
invariant of the machine, frames, the errors of 60_exceptions.md R129 in closed form, and the sprite's cells. -/

namespace Sys2Proof.Machine

/-! ## Runs -/

/-- No step of the run has reported an error (60_exceptions.md R144). -/
def State.Safe (s : State) : Prop := s.faulted = false

/-- `init(P)` (70_reset_and_hazards.md R148): the reset state with the image at 0x200. -/
def State.init (image : List Byte) : Result := State.reset.load image

/-- The program has ended: the word at pc is a jump to itself (70_reset_and_hazards.md R151). -/
def State.Ended (s : State) : Prop :=
  s.pc.toNat ≤ 0xFFE ∧ ∃ nnn : Addr12, decodeWord s.fetchWord = some (.jp nnn) ∧ nnn.toNat = s.pc.toNat

/-! ## The invariant -/

/-- What every step keeps: memory is canonical; I is an address (10_state.md R24); pc is at most 0x10FE (R28); a stack entry
in use is at most 0x1000 (R37). -/
structure State.Inv (s : State) : Prop where
  memCanonical : Memory.wf s.cfg.font s.mem
  indexInRange : s.i.toNat ≤ 0xFFF
  pcInRange : s.pc.toNat ≤ 0x10FE
  stackInRange : ∀ j : Fin 16, j.val < s.sp.val → (s.stack.get j).toNat ≤ 0x1000

/-! ## Frames (00_scope.md R14) -/

/-- Every byte of memory reads as before. -/
def SameMemory (s t : State) : Prop := ∀ a, t.readByte a = s.readByte a

/-- Every byte of memory outside the `n` bytes from `base` reads as before. -/
def SameMemoryOutside (s t : State) (base n : Nat) : Prop :=
  ∀ a, a < base ∨ base + n ≤ a → t.readByte a = s.readByte a

/-- Nothing but the named general registers may have changed. -/
def OnlyRegs (s t : State) (written : List Reg) : Prop :=
  (∀ r, r ∉ written → t.getV r = s.getV r) ∧ t = { s with v := t.v } ∧ SameMemory s t

/-- Nothing but pc may have changed. -/
def OnlyPc (s t : State) : Prop := t = { s with pc := t.pc } ∧ SameMemory s t

/-- Nothing but I may have changed. -/
def OnlyIndex (s t : State) : Prop := t = { s with i := t.i } ∧ SameMemory s t

/-- Nothing but the `n` bytes from `base` may have changed. -/
def OnlyBytes (s t : State) (base n : Nat) : Prop := t = { s with mem := t.mem } ∧ SameMemoryOutside s t base n

/-- Nothing but the report and the model-only bit changed, and the report is this one (60_exceptions.md R130). -/
def OnlyReport (s t : State) (kind : ErrorKind) (detail : Nat) : Prop :=
  t = { s with err := t.err, faulted := true } ∧
    ∃ e, t.err = some e ∧ e.kind = kind ∧ e.detail = detail ∧ e.a = s.pc - 2

/-! ## The errors of 60_exceptions.md R129, in closed form -/

/-- MemoryOutOfRange of an access of `n` bytes from I: the first address at 0x1000 or above. -/
def State.rangeError (s : State) (n : Nat) : Option (ErrorKind × Nat) :=
  if 0 < n ∧ 0x1000 < s.i.toNat + n then some (.memoryOutOfRange, max s.i.toNat 0x1000) else none

/-- The errors of a write of `n` bytes from I: the range before the font (60_exceptions.md R133). -/
def State.storeError (s : State) (n : Nat) : Option (ErrorKind × Nat) :=
  if 0 < n ∧ 0x1000 < s.i.toNat + n then some (.memoryOutOfRange, max s.i.toNat 0x1000)
  else if s.cfg.fontWrite = .fault ∧ 0 < n ∧ s.i.toNat < 0xA0 ∧ 0x50 < s.i.toNat + n then
    some (.fontWriteViolation, max s.i.toNat 0x50)
  else none

/-- A write of `n` bytes from I is allowed: it stays in memory, and out of the font region where that is protected. -/
def State.StoreAllowed (s : State) (n : Nat) : Prop :=
  s.i.toNat + n ≤ 0x1000 ∧ (s.cfg.fontWrite = .fault → s.i.toNat + n ≤ 0x050 ∨ 0x0A0 ≤ s.i.toNat)

/-- A register's value as an index: an error above 15. -/
def State.indexError (s : State) (x : Reg) (kind : ErrorKind) : Option (ErrorKind × Nat) :=
  if 15 < (s.getV x).toNat then some (kind, (s.getV x).toNat) else none

end Sys2Proof.Machine

namespace Sys2Proof

open Machine

/-- The registers an instruction may write (10_state.md R22, third column). -/
def Instr.writesReg : Instr → Reg → Bool
  | .cls, _ | .ret, _ | .jp _, _ | .call _, _ | .jpV0 _, _ | .ldI _, _ => false
  | .seVxKk _ _, _ | .sneVxKk _ _, _ | .seVxVy _ _, _ | .sneVxVy _ _, _ | .skp _, _ | .sknp _, _ => false
  | .ldVxKk x _, r | .addVxKk x _, r | .ldVxVy x _, r | .or x _, r | .and x _, r | .xor x _, r => r == x
  | .rnd x _, r | .ldVxDt x, r | .ldVxK x, r => r == x
  | .addVxVy x _, r | .sub x _, r | .shr x _, r | .subn x _, r | .shl x _, r => r == x || r == vf
  | .drw _ _ _, r => r == vf
  | .ldDtVx _, _ | .ldStVx _, _ | .addIVx _, _ | .ldFVx _, _ | .ldBVx _, _ | .ldMemVx _, _ => false
  | .ldVxMem x, r => r ≤ x

/-- The error an instruction raises in a state (60_exceptions.md R129): its kind and detail. -/
def Instr.error (i : Instr) (s : State) : Option (ErrorKind × Nat) :=
  match i with
  | .ret => if s.sp.val = 0 then some (.stackUnderflow, 0) else none
  | .call _ => if s.sp.val = 16 then some (.stackOverflow, 16) else none
  | .ldFVx x => s.indexError x .invalidRegisterIndex
  | .skp x | .sknp x => s.indexError x .keyIndexOutOfRange
  | .drw _ _ n => s.rangeError n.val
  | .ldVxMem x => s.rangeError (x.val + 1)
  | .ldBVx _ => s.storeError 3
  | .ldMemVx x => s.storeError (x.val + 1)
  | .cls | .jp _ | .seVxKk _ _ | .sneVxKk _ _ | .seVxVy _ _ | .ldVxKk _ _ | .addVxKk _ _ | .ldVxVy _ _ | .or _ _
  | .and _ _ | .xor _ _ | .addVxVy _ _ | .sub _ _ | .shr _ _ | .subn _ _ | .shl _ _ | .sneVxVy _ _ | .ldI _ | .jpV0 _
  | .rnd _ _ | .ldVxDt _ | .ldVxK _ | .ldDtVx _ | .ldStVx _ | .addIVx _ => none

end Sys2Proof

namespace Sys2Proof.Machine

/-- The error the next step reports, in the order of 60_exceptions.md R133: fetch, decode, the instruction's own checks. -/
def State.stepError (s : State) : Option (ErrorKind × Nat) :=
  if 0xFFE < s.pc.toNat then some (.memoryOutOfRange, max s.pc.toNat 0x1000)
  else match decodeWord s.fetchWord with
    | none => some (.unrecognizedOpcode, s.fetchWord.toNat)
    | some i => i.error s

/-! ## pc after a step (10_state.md R26) -/

/-- The skip of R26: `a + 4` where the condition holds, else `a + 2`. -/
def State.skipTarget (s : State) (c : Bool) : Word := if c then s.pc + 4 else s.pc + 2

/-- pc after an instruction that raises no error, from the state before the step, by the table of R26. -/
def State.pcAfterInstr (s : State) : Instr → Word
  | .jp nnn | .call nnn => BitVec.ofNat 16 nnn.toNat
  | .ret => s.stack.get (Fin.ofNat 16 (s.sp.val - 1))
  | .jpV0 nnn => BitVec.ofNat 16 (nnn.toNat + (s.getV 0).toNat)
  | .seVxKk x kk => s.skipTarget (s.getV x = kk)
  | .sneVxKk x kk => s.skipTarget (s.getV x ≠ kk)
  | .seVxVy x y => s.skipTarget (s.getV x = s.getV y)
  | .sneVxVy x y => s.skipTarget (s.getV x ≠ s.getV y)
  | .skp x => s.skipTarget (s.key.get (Fin.ofNat 16 (s.getV x).toNat))
  | .sknp x => s.skipTarget (!s.key.get (Fin.ofNat 16 (s.getV x).toNat))
  | .ldVxK _ => if ∃ k, s.key.get k = true then s.pc + 2 else s.pc
  | .cls | .ldVxKk _ _ | .addVxKk _ _ | .ldVxVy _ _ | .or _ _ | .and _ _ | .xor _ _ | .addVxVy _ _ | .sub _ _ | .shr _ _
  | .subn _ _ | .shl _ _ | .ldI _ | .rnd _ _ | .drw _ _ _ | .ldVxDt _ | .ldDtVx _ | .ldStVx _ | .addIVx _ | .ldFVx _
  | .ldBVx _ | .ldMemVx _ | .ldVxMem _ => s.pc + 2

/-- pc after the step, by the table of R26. -/
def State.pcAfter (s : State) : Word :=
  if 0xFFE < s.pc.toNat then s.pc
  else if s.stepError ≠ none then s.pc + 2
  else match decodeWord s.fetchWord with
    | none => s.pc + 2
    | some i => s.pcAfterInstr i

/-! ## Sprites -/

/-- Which sprite column (row) lies at a screen position, from the base position on an axis of `size` cells
(44_display.md R117). -/
def spriteIndex (edge : SpriteEdge) (size base pos : Nat) : Option Nat :=
  match edge with
  | .clip => if base ≤ pos then some (pos - base) else none
  | .wrap => some ((pos + size - base) % size)

/-- A set bit of the sprite falls on the cell (44_display.md R116, R117). -/
def State.covers (s : State) (x y : Reg) (n : Nat) (cx : Fin 64) (cy : Fin 32) : Bool :=
  match spriteIndex s.cfg.spriteEdge 64 ((s.getV x).toNat % 64) cx.val,
      spriteIndex s.cfg.spriteEdge 32 ((s.getV y).toNat % 32) cy.val with
  | some c, some r => decide (c < 8) && decide (r < n) && (s.readByte (s.i.toNat + r)).getLsbD (7 - c)
  | _, _ => false

end Sys2Proof.Machine
end

