-- ==== Sys2Proof/Certificates/Slice0/Obligations.lean ====
section
/-! DEFINITION. The statements for the provers. Each docstring names the rules it formalises; "the spec's own decision D<n>"
marks a clause that rests on 92_eei_decisions.md, "log <n>" one that rests on a choice of the model. -/

open Sys2Proof Sys2Proof.Machine

/-! ## Encoding -/

/-- Decoding the bytes of any instruction gives the instruction, and the bytes after it (30_encoding.md, formats and
decoding). -/
def Obligations.DecodeOfEncodeIsTheInstruction : Prop :=
  ∀ (i : Instr) (rest : List Byte), decode (encode i ++ rest) = .ok (i, rest)

/-- No bit of a recognized word is dropped: encoding what a word decodes to gives the word. The y field of SHR and SHL is kept
as an operand for this (log 15). -/
def Obligations.EncodeOfDecodeIsTheWord : Prop :=
  ∀ (w : Word) (i : Instr), decodeWord w = some i → encodeWord i = w

/-- 30_encoding.md R84: a word is a row's instruction exactly where (w & mask) = match; no word matches two rows; and a word
is Unrecognized exactly where it matches none. -/
def Obligations.DecoderAgreesWithOpcodeTable : Prop :=
  ∀ w : Word,
    (∀ r ∈ opcodeTable, r.accepts w = true ↔ ∃ i, decodeWord w = some i ∧ i.mnemonic = r.mnemonic) ∧
    (∀ r ∈ opcodeTable, ∀ q ∈ opcodeTable, r.accepts w = true → q.accepts w = true → r = q) ∧
    (decodeWord w = none ↔ wordWellFormed w = false)

/-- A few words of the spec's examples, read byte by byte (41_control_flow.md, 42_alu.md, 43_index_memory.md, 44_display.md,
45_keypad_timers.md), and one that is rejected by name (30_encoding.md R74). -/
def Obligations.ExampleWordsDecode : Prop :=
  decode [0x12, 0x34] = .ok (.jp 0x234, []) ∧
  decode [0x33, 0x42] = .ok (.seVxKk 3 0x42, []) ∧
  decode [0x80, 0x14] = .ok (.addVxVy 0 1, []) ∧
  decode [0xA2, 0xF0] = .ok (.ldI 0x2F0, []) ∧
  decode [0xD0, 0x15] = .ok (.drw 0 1 5, []) ∧
  decode [0xE1, 0x9E] = .ok (.skp 1, []) ∧
  decode [0xF5, 0x33] = .ok (.ldBVx 5, []) ∧
  decode [0x51, 0x21] = .error (.unrecognizedOpcode 0x5121)

/-! ## The step -/

/-- 30_encoding.md R67, its three branches: a fetch beyond memory, an unrecognized word, and a decoded instruction, which runs
with pc advanced by 2 and no error reported yet; then both timers tick. `faulted` is the model-only bit of R144, and the
step drops the random byte it was given (log 7). -/
def Obligations.StepFetchesExecutesAndTicks : Prop :=
  ∀ s : State,
    (0xFFE < s.pc.toNat →
      step s = .next { s with
        err := some { kind := .memoryOutOfRange, a := s.pc, w := none, detail := max s.pc.toNat 0x1000 }
        faulted := true
        dt := if s.dt = 0 then 0 else s.dt - 1
        st := if s.st = 0 then 0 else s.st - 1
        rndIn := none }) ∧
    (∀ w, s.pc.toNat ≤ 0xFFE →
      decode [s.readByte s.pc.toNat, s.readByte (s.pc.toNat + 1)] = .error (.unrecognizedOpcode w) →
      step s = .next { s with
        pc := s.pc + 2
        err := some { kind := .unrecognizedOpcode, a := s.pc, w := some w, detail := w.toNat }
        faulted := true
        dt := if s.dt = 0 then 0 else s.dt - 1
        st := if s.st = 0 then 0 else s.st - 1
        rndIn := none }) ∧
    (∀ i t, s.pc.toNat ≤ 0xFFE →
      decode [s.readByte s.pc.toNat, s.readByte (s.pc.toNat + 1)] = .ok (i, []) →
      exec i { s with err := none, pc := s.pc + 2 } = .next t →
      step s = .next { t with
        dt := if t.dt = 0 then 0 else t.dt - 1
        st := if t.st = 0 then 0 else t.st - 1
        rndIn := none })

/-- The core never halts (60_exceptions.md, recovery; 70_reset_and_hazards.md, stop): every step of every state answers a next
state, whatever stands at pc. -/
def Obligations.EveryStepAnswersANextState : Prop :=
  ∀ s : State, ∃ t, step s = .next t

/-- 30_encoding.md R71: every step, with an error or without, stalled or not, decrements each timer that is above 0; the value
that Fx15 or Fx18 wrote in the step is the one decremented. -/
def Obligations.TimersTickInEveryStep : Prop :=
  ∀ s t : State, step s = .next t →
    (∀ x, s.pc.toNat ≤ 0xFFE → decodeWord s.fetchWord = some (.ldDtVx x) → t.dt.toNat = (s.getV x).toNat - 1) ∧
    ((¬ ∃ x, s.pc.toNat ≤ 0xFFE ∧ decodeWord s.fetchWord = some (.ldDtVx x)) → t.dt.toNat = s.dt.toNat - 1) ∧
    (∀ x, s.pc.toNat ≤ 0xFFE → decodeWord s.fetchWord = some (.ldStVx x) → t.st.toNat = (s.getV x).toNat - 1) ∧
    ((¬ ∃ x, s.pc.toNat ≤ 0xFFE ∧ decodeWord s.fetchWord = some (.ldStVx x)) → t.st.toNat = s.st.toNat - 1)

/-- 10_state.md R26: pc after every step of every state, by the rule's table. -/
def Obligations.PcAfterEveryStep : Prop :=
  ∀ s t : State, step s = .next t → t.pc = s.pcAfter

/-! ## Errors -/

/-- 60_exceptions.md R129 and R133 with the spec's own decisions D12, D13, D16, D18, D19, D25, D26: a step reports exactly the
error that the table names for it, first check first, with the table's detail, and no other condition raises one. -/
def Obligations.StepReportsExactlyTheTableError : Prop :=
  ∀ s : State, ∃ t, step s = .next t ∧ t.err.map (fun e => (e.kind, e.detail)) = s.stepError

/-- 60_exceptions.md R130, R131: a step that reports an error writes nothing but the cycle's own pc advance (none where the
fetch failed) and the timer decrements, beside the report itself, the model-only bit (R144) and the dropped random
byte (log 7). -/
def Obligations.ErrorStepsArePrecise : Prop :=
  ∀ s t : State, step s = .next t → t.err ≠ none →
    t = { s with
      pc := if s.pc.toNat ≤ 0xFFE then s.pc + 2 else s.pc
      dt := if s.dt = 0 then 0 else s.dt - 1
      st := if s.st = 0 then 0 else s.st - 1
      err := t.err
      faulted := true
      rndIn := none }

/-- The report names the step's fetch address and the fetched word, absent where the fetch failed (60_exceptions.md R128);
the model-only bit is set by a step that reports an error and cleared by none (R144, the spec's own decision D35). -/
def Obligations.ReportNamesTheStepAndSetsFaulted : Prop :=
  ∀ s t : State, step s = .next t →
    (∀ e, t.err = some e → e.a = s.pc ∧ e.w = if s.pc.toNat ≤ 0xFFE then some s.fetchWord else none) ∧
    t.faulted = (s.faulted || t.err.isSome)

/-! ## The invariant -/

/-- Memory stays canonical (log 6), I stays an address (10_state.md R24), pc stays at most 0x10FE (R28), and a stack entry in
use stays at most 0x1000 (R37), through every step from every state that has them. -/
def Obligations.EveryStepKeepsTheInvariant : Prop :=
  ∀ s t : State, s.Inv → step s = .next t → t.Inv

/-- The state after reset has the invariant (10_state.md R45). -/
def Obligations.ResetMeetsTheInvariant : Prop := State.reset.Inv

/-- Every sequence of host operations (reset, load, step, setKey, clearFrameReady: 10_state.md R42, R43) keeps the invariant:
so every state the machine can be in after reset has it. -/
def Obligations.HostSequencesKeepTheInvariant : Prop :=
  ∀ (ops : List HostOp) (s : State), s.Inv → (s.applyAll ops).Inv

/-! ## Who writes what -/

/-- 44_display.md R120: only 00E0 and Dxyn change the framebuffer; only Dxyn changes frameReady, to 1. -/
def Obligations.OnlyDisplayInstructionsWriteTheScreen : Prop :=
  ∀ s t : State, step s = .next t →
    (t.fb ≠ s.fb → s.pc.toNat ≤ 0xFFE ∧
      (decodeWord s.fetchWord = some .cls ∨ ∃ x y n, decodeWord s.fetchWord = some (.drw x y n))) ∧
    (t.frameReady ≠ s.frameReady → s.pc.toNat ≤ 0xFFE ∧
      (∃ x y n, decodeWord s.fetchWord = some (.drw x y n)) ∧ t.frameReady = true)

/-- Only Fx33 and Fx55 change memory (10_state.md R38), and under FONT_WRITE_POLICY = fault no step changes a byte of the font
region (20_memory.md R50, the spec's own decision D16). -/
def Obligations.OnlyStoresWriteMemoryAndNeverTheFont : Prop :=
  ∀ s t : State, step s = .next t →
    ((∃ a, t.readByte a ≠ s.readByte a) → s.pc.toNat ≤ 0xFFE ∧
      ∃ x, decodeWord s.fetchWord = some (.ldBVx x) ∨ decodeWord s.fetchWord = some (.ldMemVx x)) ∧
    (s.cfg.fontWrite = .fault → ∀ a, 0x050 ≤ a → a ≤ 0x09F → t.readByte a = s.readByte a)

/-- The general registers a step writes are those of the table of 10_state.md R22 (third column). -/
def Obligations.RegistersWrittenAreThoseOfTheTable : Prop :=
  ∀ (s t : State) (i : Instr) (r : Reg), s.pc.toNat ≤ 0xFFE → decodeWord s.fetchWord = some i → step s = .next t →
    i.writesReg r = false → t.getV r = s.getV r

/-- The table of 10_state.md R37, its column of writers: I by Annn, Fx1E, Fx29; SP and the stack by 2nnn, 00EE; the keys and
the machine's parameters by no step. -/
def Obligations.ControlStateIsWrittenOnlyByItsInstructions : Prop :=
  ∀ s t : State, step s = .next t →
    (t.i ≠ s.i → (∃ nnn, decodeWord s.fetchWord = some (.ldI nnn)) ∨
      ∃ x, decodeWord s.fetchWord = some (.addIVx x) ∨ decodeWord s.fetchWord = some (.ldFVx x)) ∧
    (t.sp ≠ s.sp ∨ t.stack ≠ s.stack →
      decodeWord s.fetchWord = some .ret ∨ ∃ nnn, decodeWord s.fetchWord = some (.call nnn)) ∧
    t.key = s.key ∧ t.cfg = s.cfg

/-! ## What a step can learn -/

/-- The random byte of a step matters to Cxkk alone (10_state.md R46; 70_reset_and_hazards.md R159): any other step is the
same with every byte. -/
def Obligations.RandomByteMattersOnlyToRnd : Prop :=
  ∀ (s : State) (b b' : Byte), (∀ x kk, decodeWord s.fetchWord ≠ some (.rnd x kk)) → stepRnd b s = stepRnd b' s

/-- The keys matter to Ex9E, ExA1 and Fx0A alone (10_state.md R33): any other step does the same with every key state, and
hands the keys on. -/
def Obligations.KeysMatterOnlyToKeyInstructions : Prop :=
  ∀ (s : State) (keys : Vector Bool 16),
    (∀ x, decodeWord s.fetchWord ≠ some (.skp x) ∧ decodeWord s.fetchWord ≠ some (.sknp x) ∧
      decodeWord s.fetchWord ≠ some (.ldVxK x)) →
    ∃ t, step s = .next t ∧ step { s with key := keys } = .next { t with key := keys }

/-! ## Control flow -/

/-- 41_control_flow.md R86: JP writes nnn to pc and nothing else. -/
def Obligations.JumpSetsPc : Prop :=
  ∀ (nnn : Addr12) (s : State), ∃ t, exec (.jp nnn) s = .next t ∧ t.pc.toNat = nnn.toNat ∧ OnlyPc s t

/-- 41_control_flow.md R92 with the spec's own decision D15: JP V0 writes the full sum nnn + V0, which never wraps. -/
def Obligations.OffsetJumpIsTheFullSum : Prop :=
  ∀ (nnn : Addr12) (s : State), ∃ t, exec (.jpV0 nnn) s = .next t ∧
    t.pc.toNat = nnn.toNat + (s.getV 0).toNat ∧ t.pc.toNat ≤ 0x10FE ∧ OnlyPc s t

/-- 41_control_flow.md R88 to R91: the four skips move pc by 2 more exactly where their condition holds. -/
def Obligations.SkipsFollowTheirCondition : Prop :=
  ∀ (x y : Reg) (kk : Byte) (s : State),
    (∃ t, exec (.seVxKk x kk) s = .next t ∧ t.pc = (if s.getV x = kk then s.pc + 2 else s.pc) ∧ OnlyPc s t) ∧
    (∃ t, exec (.sneVxKk x kk) s = .next t ∧ t.pc = (if s.getV x = kk then s.pc else s.pc + 2) ∧ OnlyPc s t) ∧
    (∃ t, exec (.seVxVy x y) s = .next t ∧ t.pc = (if s.getV x = s.getV y then s.pc + 2 else s.pc) ∧ OnlyPc s t) ∧
    (∃ t, exec (.sneVxVy x y) s = .next t ∧ t.pc = (if s.getV x = s.getV y then s.pc else s.pc + 2) ∧ OnlyPc s t)

/-- 41_control_flow.md R87: CALL stores pc at STACK[SP], then increments SP, then jumps; a full stack is StackOverflow. -/
def Obligations.CallPushesOrOverflows : Prop :=
  ∀ (nnn : Addr12) (s : State),
    (s.sp.val < 16 → ∃ t, exec (.call nnn) s = .next t ∧ t.sp.val = s.sp.val + 1 ∧ t.pc.toNat = nnn.toNat ∧
      (∀ j : Fin 16, t.stack.get j = if j.val = s.sp.val then s.pc else s.stack.get j) ∧
      t = { s with sp := t.sp, pc := t.pc, stack := t.stack } ∧ SameMemory s t) ∧
    (s.sp.val = 16 → ∃ t, exec (.call nnn) s = .next t ∧ OnlyReport s t .stackOverflow 16)

/-- 41_control_flow.md R85: RET decrements SP and loads pc from STACK[SP], which keeps its entry; an empty stack is
StackUnderflow. -/
def Obligations.ReturnPopsOrUnderflows : Prop :=
  ∀ s : State,
    (∀ j : Fin 16, s.sp.val = j.val + 1 → ∃ t, exec .ret s = .next t ∧ t.sp.val = j.val ∧ t.pc = s.stack.get j ∧
      t = { s with sp := t.sp, pc := t.pc } ∧ SameMemory s t) ∧
    (s.sp.val = 0 → ∃ t, exec .ret s = .next t ∧ OnlyReport s t .stackUnderflow 0)

/-- A call followed by a return restores pc to the address after the call's two bytes, and the stack pointer
(95_test_vectors.md L1.6, the source's property). -/
def Obligations.CallThenReturnComesBack : Prop :=
  ∀ (nnn : Addr12) (s : State), s.sp.val < 16 →
    ∃ t u, exec (.call nnn) s = .next t ∧ exec .ret t = .next u ∧ u.pc = s.pc ∧ u.sp = s.sp ∧
      u = { s with stack := u.stack }

/-! ## Registers and the ALU -/

/-- 42_alu.md R93, R94, R97 to R100: the destination holds the result; no other register, VF included, and nothing else
changes. -/
def Obligations.LoadsAndLogicWriteOneRegister : Prop :=
  ∀ (x y : Reg) (kk : Byte) (s : State),
    (∃ t, exec (.ldVxKk x kk) s = .next t ∧ t.getV x = kk ∧ OnlyRegs s t [x]) ∧
    (∃ t, exec (.addVxKk x kk) s = .next t ∧ (t.getV x).toNat = ((s.getV x).toNat + kk.toNat) % 256 ∧ OnlyRegs s t [x]) ∧
    (∃ t, exec (.ldVxVy x y) s = .next t ∧ t.getV x = s.getV y ∧ OnlyRegs s t [x]) ∧
    (∃ t, exec (.or x y) s = .next t ∧ t.getV x = (s.getV x ||| s.getV y) ∧ OnlyRegs s t [x]) ∧
    (∃ t, exec (.and x y) s = .next t ∧ t.getV x = (s.getV x &&& s.getV y) ∧ OnlyRegs s t [x]) ∧
    (∃ t, exec (.xor x y) s = .next t ∧ t.getV x = (s.getV x ^^^ s.getV y) ∧ OnlyRegs s t [x])

/-- 42_alu.md R101: the sum modulo 256, then VF = carry, so that VF holds the carry even where it is the destination. -/
def Obligations.AddWritesSumThenCarry : Prop :=
  ∀ (x y : Reg) (s : State), ∃ t, exec (.addVxVy x y) s = .next t ∧
    t.getV 0xF = (if 255 < (s.getV x).toNat + (s.getV y).toNat then 1 else 0) ∧
    (x ≠ 0xF → (t.getV x).toNat = ((s.getV x).toNat + (s.getV y).toNat) % 256) ∧ OnlyRegs s t [x, 0xF]

/-- 42_alu.md R102, R104 under VF_OPERAND_READING = latched: VF = strictly greater, then the difference modulo 256, which VF
holds where it is the destination. The other setting is `SequentialReadingSeesTheFlag`. -/
def Obligations.SubtractionsWriteFlagThenDifference : Prop :=
  ∀ (x y : Reg) (s : State), s.cfg.vfReading = .latched →
    (∃ t, exec (.sub x y) s = .next t ∧
      (t.getV x).toNat = ((s.getV x).toNat + 256 - (s.getV y).toNat) % 256 ∧
      (x ≠ 0xF → t.getV 0xF = if (s.getV y).toNat < (s.getV x).toNat then 1 else 0) ∧ OnlyRegs s t [x, 0xF]) ∧
    (∃ t, exec (.subn x y) s = .next t ∧
      (t.getV x).toNat = ((s.getV y).toNat + 256 - (s.getV x).toNat) % 256 ∧
      (x ≠ 0xF → t.getV 0xF = if (s.getV x).toNat < (s.getV y).toNat then 1 else 0) ∧ OnlyRegs s t [x, 0xF])

/-- 42_alu.md R103, R105 under VF_OPERAND_READING = latched: VF = the bit shifted out, then the shifted value, which VF holds
where it is the destination; V[y] is read by neither, for every y. -/
def Obligations.ShiftsWriteLostBitThenResult : Prop :=
  ∀ (x y : Reg) (s : State), s.cfg.vfReading = .latched →
    (∃ t, exec (.shr x y) s = .next t ∧ (t.getV x).toNat = (s.getV x).toNat / 2 ∧
      (x ≠ 0xF → (t.getV 0xF).toNat = (s.getV x).toNat % 2) ∧ OnlyRegs s t [x, 0xF]) ∧
    (∃ t, exec (.shl x y) s = .next t ∧ (t.getV x).toNat = (s.getV x).toNat * 2 % 256 ∧
      (x ≠ 0xF → (t.getV 0xF).toNat = (s.getV x).toNat / 128) ∧ OnlyRegs s t [x, 0xF])

/-- 42_alu.md R96, its table: under VF_OPERAND_READING = sequential an operand that is VF is read after the flag write (f is
the flag), and in every other case the result is that of `latched`; the flag is from the operands as they were. -/
def Obligations.SequentialReadingSeesTheFlag : Prop :=
  ∀ (x y : Reg) (s : State), s.cfg.vfReading = .sequential →
    let a := (s.getV x).toNat
    let b := (s.getV y).toNat
    (∃ t, exec (.sub x y) s = .next t ∧
      (let f := if b < a then 1 else 0
       (x ≠ 0xF → (t.getV 0xF).toNat = f) ∧
       (x = 0xF → y ≠ 0xF → (t.getV x).toNat = (f + 256 - b) % 256) ∧
       (x ≠ 0xF → y = 0xF → (t.getV x).toNat = (a + 256 - f) % 256) ∧
       ((x = 0xF ↔ y = 0xF) → (t.getV x).toNat = (a + 256 - b) % 256)) ∧ OnlyRegs s t [x, 0xF]) ∧
    (∃ t, exec (.subn x y) s = .next t ∧
      (let f := if a < b then 1 else 0
       (x ≠ 0xF → (t.getV 0xF).toNat = f) ∧
       (x = 0xF → y ≠ 0xF → (t.getV x).toNat = (b + 256 - f) % 256) ∧
       (x ≠ 0xF → y = 0xF → (t.getV x).toNat = (f + 256 - a) % 256) ∧
       ((x = 0xF ↔ y = 0xF) → (t.getV x).toNat = (b + 256 - a) % 256)) ∧ OnlyRegs s t [x, 0xF]) ∧
    (∃ t, exec (.shr x y) s = .next t ∧
      (x = 0xF → (t.getV x).toNat = 0) ∧
      (x ≠ 0xF → (t.getV x).toNat = a / 2 ∧ (t.getV 0xF).toNat = a % 2) ∧ OnlyRegs s t [x, 0xF]) ∧
    (∃ t, exec (.shl x y) s = .next t ∧
      (x = 0xF → (t.getV x).toNat = a / 128 * 2 % 256) ∧
      (x ≠ 0xF → (t.getV x).toNat = a * 2 % 256 ∧ (t.getV 0xF).toNat = a / 128) ∧ OnlyRegs s t [x, 0xF])

/-- 42_alu.md R106: V[x] <- rnd & kk, for every random byte. The byte is the host's where it is known, else a free one that no
statement knows; the model's own fields `rndIn` and `draws` record that it is consumed (log 7). -/
def Obligations.RandomAndImmediate : Prop :=
  ∀ (x : Reg) (kk : Byte) (s : State),
    (∀ b, s.rndIn = some b → ∃ t, exec (.rnd x kk) s = .next t ∧ t.getV x = (b &&& kk) ∧
      (∀ r, r ≠ x → t.getV r = s.getV r) ∧ t = { s with v := t.v, rndIn := none, draws := s.draws + 1 } ∧
      SameMemory s t) ∧
    (s.rndIn = none → ∃ t, exec (.rnd x kk) s = .next t ∧ t.getV x = (Config.freeRnd s.draws &&& kk) ∧
      (∀ r, r ≠ x → t.getV r = s.getV r) ∧ t = { s with v := t.v, draws := s.draws + 1 } ∧ SameMemory s t)

/-! ## The index register and memory -/

/-- 43_index_memory.md R108, R109: I <- nnn, and I <- (I + V[x]) mod 4096 with VF unchanged. -/
def Obligations.IndexLoadAndAdd : Prop :=
  ∀ (nnn : Addr12) (x : Reg) (s : State),
    (∃ t, exec (.ldI nnn) s = .next t ∧ t.i.toNat = nnn.toNat ∧ OnlyIndex s t) ∧
    (∃ t, exec (.addIVx x) s = .next t ∧ t.i.toNat = (s.i.toNat + (s.getV x).toNat) % 4096 ∧ OnlyIndex s t)

/-- 43_index_memory.md R110: I <- 0x050 + 5 x V[x] for a digit; a value above 15 is InvalidRegisterIndex with I unchanged (the
spec's own decision D18). -/
def Obligations.FontAddressOfADigit : Prop :=
  ∀ (x : Reg) (s : State),
    ((s.getV x).toNat ≤ 15 → ∃ t, exec (.ldFVx x) s = .next t ∧ t.i.toNat = 0x050 + 5 * (s.getV x).toNat ∧ OnlyIndex s t) ∧
    (15 < (s.getV x).toNat → ∃ t, exec (.ldFVx x) s = .next t ∧
      OnlyReport s t .invalidRegisterIndex (s.getV x).toNat)

/-- 43_index_memory.md R111, with the spec's own decisions D12 and D16 for when the store is allowed: the decimal digits of
V[x] at I, I + 1, I + 2, nothing else. When it is not allowed: `StoresFailWhole`. -/
def Obligations.BcdStoresThreeDigits : Prop :=
  ∀ (x : Reg) (s : State), s.StoreAllowed 3 →
    ∃ t, exec (.ldBVx x) s = .next t ∧
      (t.readByte s.i.toNat).toNat = (s.getV x).toNat / 100 ∧
      (t.readByte (s.i.toNat + 1)).toNat = (s.getV x).toNat / 10 % 10 ∧
      (t.readByte (s.i.toNat + 2)).toNat = (s.getV x).toNat % 10 ∧ OnlyBytes s t s.i.toNat 3

/-- 43_index_memory.md R112, with the spec's own decisions D12, D16 and D23: V[0..x] at I .. I + x, nothing else. When the
store is not allowed: `StoresFailWhole`. -/
def Obligations.RegisterDumpStoresEveryRegister : Prop :=
  ∀ (x : Reg) (s : State), s.StoreAllowed (x.val + 1) →
    ∃ t, exec (.ldMemVx x) s = .next t ∧ (∀ r : Reg, r ≤ x → t.readByte (s.i.toNat + r.val) = s.getV r) ∧
      OnlyBytes s t s.i.toNat (x.val + 1)

/-- The stores that are not allowed (43_index_memory.md R111, R112, the spec's own decisions D12, D16, D26): the range before
the font, the lowest failing byte, and no byte written. -/
def Obligations.StoresFailWhole : Prop :=
  ∀ (x : Reg) (s : State) (i : Instr) (n : Nat), (i = .ldBVx x ∧ n = 3) ∨ (i = .ldMemVx x ∧ n = x.val + 1) →
    (0x1000 < s.i.toNat + n → ∃ t, exec i s = .next t ∧ OnlyReport s t .memoryOutOfRange (max s.i.toNat 0x1000)) ∧
    (s.i.toNat + n ≤ 0x1000 → s.cfg.fontWrite = .fault → 0x050 < s.i.toNat + n → s.i.toNat < 0x0A0 →
      ∃ t, exec i s = .next t ∧ OnlyReport s t .fontWriteViolation (max s.i.toNat 0x050))

/-- 43_index_memory.md R113: memory[I .. I + x] to V[0..x], nothing else; past 0xFFF it is MemoryOutOfRange with no register
written. -/
def Obligations.RegisterLoadReadsEveryRegister : Prop :=
  ∀ (x : Reg) (s : State),
    (s.i.toNat + x.val ≤ 0xFFF → ∃ t, exec (.ldVxMem x) s = .next t ∧
      (∀ r : Reg, r ≤ x → t.getV r = s.readByte (s.i.toNat + r.val)) ∧ (∀ r : Reg, x < r → t.getV r = s.getV r) ∧
      t = { s with v := t.v } ∧ SameMemory s t) ∧
    (0xFFF < s.i.toNat + x.val → ∃ t, exec (.ldVxMem x) s = .next t ∧
      OnlyReport s t .memoryOutOfRange (max s.i.toNat 0x1000))

/-- 43_index_memory.md R114: a dump that is allowed, then a load with the same x and I, whatever the registers were in
between: V[0..x] are what they were. -/
def Obligations.DumpThenLoadRestoresRegisters : Prop :=
  ∀ (x : Reg) (s : State), s.StoreAllowed (x.val + 1) →
    ∃ t, exec (.ldMemVx x) s = .next t ∧
      ∀ between : Vector Byte 16, ∃ u, exec (.ldVxMem x) { t with v := between } = .next u ∧
        ∀ r : Reg, r ≤ x → u.getV r = s.getV r

/-- A word that a dump stored is the word the next fetch at its address reads, high byte at the lower address, with nothing
between (20_memory.md R53, R60; 70_reset_and_hazards.md R153). -/
def Obligations.DumpedWordIsFetched : Prop :=
  ∀ (x k l : Reg) (s : State), s.StoreAllowed (x.val + 1) → l.val = k.val + 1 → l ≤ x → s.pc.toNat = s.i.toNat + k.val →
    ∃ t, exec (.ldMemVx x) s = .next t ∧ t.fetchWord = s.getV k ++ s.getV l

/-- Two canonical memories that read alike are the same data (log 6): the list form hides no difference. -/
def Obligations.CanonicalMemoriesThatReadAlikeAreEqual : Prop :=
  ∀ (font : Font) (m m' : Memory), Memory.wf font m → Memory.wf font m' →
    (∀ a, Memory.read font m a = Memory.read font m' a) → m = m'

/-! ## The display -/

/-- 44_display.md R115: every cell off; VF, frameReady and everything else unchanged. -/
def Obligations.ClearTurnsEveryCellOff : Prop :=
  ∀ s : State, ∃ t, exec .cls s = .next t ∧ (∀ cx cy, t.fb.cell cx cy = false) ∧ t = { s with fb := t.fb } ∧ SameMemory s t

/-- 44_display.md R116 to R118, under either SPRITE_EDGE (the spec's own decisions D9, D10, D12): each cell is toggled exactly
where a set bit of the sprite falls on it; VF = 1 exactly where such a cell was on; frameReady is set; nothing else. A sprite
that passes 0xFFF is MemoryOutOfRange with nothing drawn. -/
def Obligations.DrawTogglesExactlyTheCoveredCells : Prop :=
  ∀ (x y : Reg) (n : Fin 16) (s : State),
    (n.val = 0 ∨ s.i.toNat + n.val ≤ 0x1000 → ∃ t, exec (.drw x y n) s = .next t ∧
      (∀ cx cy, t.fb.cell cx cy = (s.fb.cell cx cy ^^ s.covers x y n.val cx cy)) ∧
      ((∃ cx cy, s.covers x y n.val cx cy = true ∧ s.fb.cell cx cy = true) → t.getV 0xF = 1) ∧
      ((∀ cx cy, s.covers x y n.val cx cy = true → s.fb.cell cx cy = false) → t.getV 0xF = 0) ∧
      t.frameReady = true ∧ (∀ r, r ≠ 0xF → t.getV r = s.getV r) ∧
      t = { s with v := t.v, fb := t.fb, frameReady := t.frameReady } ∧ SameMemory s t) ∧
    (n.val ≠ 0 → 0x1000 < s.i.toNat + n.val → ∃ t, exec (.drw x y n) s = .next t ∧
      OnlyReport s t .memoryOutOfRange (max s.i.toNat 0x1000))

/-- 44_display.md R119: the same sprite at the same base position drawn a second time, from any later state with the screen,
I, the sprite bytes and the parameters of the first, restores the screen, and then VF = 1 exactly where a covered cell was
off before the first draw. -/
def Obligations.DrawingTwiceRestoresTheScreen : Prop :=
  ∀ (x y x' y' : Reg) (n : Fin 16) (s : State), n.val = 0 ∨ s.i.toNat + n.val ≤ 0x1000 →
    ∃ t, exec (.drw x y n) s = .next t ∧
      ∀ t' : State, t'.fb = t.fb → t'.i = s.i → t'.cfg = s.cfg →
        (∀ k, k < n.val → t'.readByte (s.i.toNat + k) = s.readByte (s.i.toNat + k)) →
        (t'.getV x').toNat % 64 = (s.getV x).toNat % 64 → (t'.getV y').toNat % 32 = (s.getV y).toNat % 32 →
        ∃ u, exec (.drw x' y' n) t' = .next u ∧ u.fb = s.fb ∧
          (u.getV 0xF = 1 ↔ ∃ cx cy, s.covers x y n.val cx cy = true ∧ s.fb.cell cx cy = false)

/-! ## The keypad and the timers -/

/-- 45_keypad_timers.md R121, R122: the skips by the key that V[x] names; a value above 15 is KeyIndexOutOfRange with no skip
(the spec's own decision D19). -/
def Obligations.KeySkipsFollowTheKey : Prop :=
  ∀ (x : Reg) (s : State),
    (∀ k : Key, (s.getV x).toNat = k.val →
      (∃ t, exec (.skp x) s = .next t ∧ t.pc = (if s.key.get k = true then s.pc + 2 else s.pc) ∧ OnlyPc s t) ∧
      (∃ t, exec (.sknp x) s = .next t ∧ t.pc = (if s.key.get k = true then s.pc else s.pc + 2) ∧ OnlyPc s t)) ∧
    (15 < (s.getV x).toNat →
      (∃ t, exec (.skp x) s = .next t ∧ OnlyReport s t .keyIndexOutOfRange (s.getV x).toNat) ∧
      (∃ t, exec (.sknp x) s = .next t ∧ OnlyReport s t .keyIndexOutOfRange (s.getV x).toNat))

/-- 45_keypad_timers.md R124, with the spec's own decision D20 (level-sensitive): with a key pressed, the lowest one's number
in V[x]; with none, pc goes back to the fetch address and nothing else changes. -/
def Obligations.WaitForKeyTakesTheLowest : Prop :=
  ∀ (x : Reg) (s : State),
    (∀ k : Key, s.key.get k = true → (∀ j, j < k → s.key.get j = false) →
      ∃ t, exec (.ldVxK x) s = .next t ∧ (t.getV x).toNat = k.val ∧ OnlyRegs s t [x]) ∧
    ((∀ k, s.key.get k = false) → ∃ t, exec (.ldVxK x) s = .next t ∧ t.pc = s.pc - 2 ∧ OnlyPc s t)

/-- 45_keypad_timers.md R123, R125, R126: V[x] <- DT, DT <- V[x], ST <- V[x], and nothing else; the tick of the same step
comes after (`TimersTickInEveryStep`). -/
def Obligations.TimerMoves : Prop :=
  ∀ (x : Reg) (s : State),
    (∃ t, exec (.ldVxDt x) s = .next t ∧ t.getV x = s.dt ∧ OnlyRegs s t [x]) ∧
    (∃ t, exec (.ldDtVx x) s = .next t ∧ t.dt = s.getV x ∧ t = { s with dt := t.dt } ∧ SameMemory s t) ∧
    (∃ t, exec (.ldStVx x) s = .next t ∧ t.st = s.getV x ∧ t = { s with st := t.st } ∧ SameMemory s t)

/-! ## Reset, load, the host, the end of a run -/

/-- 10_state.md R45, 70_reset_and_hazards.md R145: what the host's reset leaves, whatever the state was: pc, SP and the timers
as the source says, the font set at 0x050, and the spec's own decisions D3, D5, D24 for the rest; the machine's parameters stay.
The reset state of the model is such a state (log 5). -/
def Obligations.ResetLeavesTheTable : Prop :=
  ∀ s : State,
    s.hostReset.pc = 0x200 ∧ s.hostReset.sp = 0 ∧ s.hostReset.dt = 0 ∧ s.hostReset.st = 0 ∧
    (∀ k : Fin 80, s.hostReset.readByte (0x050 + k.val) = s.cfg.font.get k) ∧
    (∀ a, a < 0x050 ∨ 0x0A0 ≤ a → s.hostReset.readByte a = 0) ∧
    (∀ r, s.hostReset.getV r = 0) ∧ s.hostReset.i = 0 ∧ (∀ j, s.hostReset.stack.get j = 0) ∧
    (∀ k, s.hostReset.key.get k = false) ∧ (∀ cx cy, s.hostReset.fb.cell cx cy = false) ∧
    s.hostReset.frameReady = false ∧ s.hostReset.err = none ∧ s.hostReset.cfg = s.cfg ∧
    State.reset.hostReset = State.reset

/-- 20_memory.md R52: an image of at most 3584 bytes is copied verbatim to 0x200 and nothing else changes; a longer one is
refused (the spec's own decision D30). -/
def Obligations.LoadCopiesTheImage : Prop :=
  ∀ (image : List Byte) (s : State),
    (image.length ≤ 3584 → ∃ t, s.load image = .next t ∧
      (∀ (k : Nat) (h : k < image.length), t.readByte (0x200 + k) = image[k]) ∧
      OnlyBytes s t 0x200 image.length) ∧
    (3584 < image.length → s.load image = .refused (.imageTooLarge image.length))

/-- 10_state.md R42, R44: setKey writes one key, clearFrameReady clears the flag, nothing else; soundActive is ST != 0. -/
def Obligations.HostWritesAndReads : Prop :=
  ∀ (s : State) (k : Key) (b : Bool),
    (∀ j, (s.setKey k b).key.get j = if j = k then b else s.key.get j) ∧
    s.setKey k b = { s with key := (s.setKey k b).key } ∧
    s.clearFrameReady = { s with frameReady := false } ∧
    (s.soundActive = true ↔ 0 < s.st.toNat)

/-- A program that has ended stays so: the self-jump leaves every piece of state but the timers, which tick
(70_reset_and_hazards.md R151, the spec's own decision D33; the step's own report is none, and its random byte is dropped,
log 7). -/
def Obligations.EndedProgramStaysEnded : Prop :=
  ∀ s : State, s.Ended → ∃ t, step s = .next t ∧ t.Ended ∧
    t = { s with dt := t.dt, st := t.st, err := none, rndIn := none }
end

