-- ==== Sys2Proof/Laws/Decode.lean ====
section
/-! SUPPORT. Words as numbers: the fields of 30_encoding.md R64 are quotients and remainders, the formats of R65 are sums.
With these, every fact about fields and formats is one of linear arithmetic. -/

namespace Sys2Proof

/-! ## Fields as numbers -/

theorem fieldN1_toNat (w : Word) : (fieldN1 w).toNat = w.toNat / 4096 := by
  have := w.isLt
  simp only [fieldN1, BitVec.extractLsb'_toNat, Nat.shiftRight_eq_div_pow]
  omega

theorem fieldX_val (w : Word) : (fieldX w).val = w.toNat / 256 % 16 := by
  simp only [fieldX, BitVec.val_toFin, BitVec.extractLsb'_toNat, Nat.shiftRight_eq_div_pow]

theorem fieldY_val (w : Word) : (fieldY w).val = w.toNat / 16 % 16 := by
  simp only [fieldY, BitVec.val_toFin, BitVec.extractLsb'_toNat, Nat.shiftRight_eq_div_pow]

theorem fieldN_val (w : Word) : (fieldN w).val = w.toNat % 16 := by
  simp only [fieldN, BitVec.val_toFin, BitVec.extractLsb'_toNat, Nat.shiftRight_eq_div_pow]
  omega

theorem fieldKk_toNat (w : Word) : (fieldKk w).toNat = w.toNat % 256 := by
  simp only [fieldKk, BitVec.extractLsb'_toNat, Nat.shiftRight_eq_div_pow]
  omega

theorem fieldNnn_toNat (w : Word) : (fieldNnn w).toNat = w.toNat % 4096 := by
  simp only [fieldNnn, BitVec.extractLsb'_toNat, Nat.shiftRight_eq_div_pow]
  omega

/-! ## Formats as numbers -/

/-- Putting bits above bits is multiplying and adding. -/
theorem append_toNat {m n : Nat} (a : BitVec m) (b : BitVec n) : (a ++ b).toNat = a.toNat * 2 ^ n + b.toNat := by
  rw [BitVec.toNat_append, ← Nat.shiftLeft_add_eq_or_of_lt b.isLt, Nat.shiftLeft_eq]

@[simp] theorem nibble_toNat (x : Fin 16) : (nibble x).toNat = x.val := rfl

theorem formatA_toNat (g : BitVec 4) (nnn : Addr12) : (formatA g nnn).toNat = g.toNat * 4096 + nnn.toNat := by
  show (g ++ nnn).toNat = _
  rw [append_toNat]
  norm_num

theorem formatXK_toNat (g : BitVec 4) (x : Reg) (kk : Byte) :
    (formatXK g x kk).toNat = g.toNat * 4096 + x.val * 256 + kk.toNat := by
  show (g ++ nibble x ++ kk).toNat = _
  rw [append_toNat, append_toNat, nibble_toNat]
  ring

theorem formatXYN_toNat (g : BitVec 4) (x y : Reg) (n : BitVec 4) :
    (formatXYN g x y n).toNat = g.toNat * 4096 + x.val * 256 + y.val * 16 + n.toNat := by
  show (g ++ nibble x ++ nibble y ++ n).toNat = _
  rw [append_toNat, append_toNat, append_toNat, nibble_toNat, nibble_toNat]
  ring

/-! ## Masks (30_encoding.md R84) -/

/-- Masking keeps the group and the low `k` bits: a sum of a multiple of 4096 and a remainder. -/
theorem and_mask (w mask : Word) (k : Nat) (hk : k ≤ 12) (hm : mask = 0xF000#16 ||| BitVec.ofNat 16 (2 ^ k - 1)) :
    (w &&& mask).toNat = w.toNat / 4096 * 4096 + w.toNat % 2 ^ k := by
  have hlt := w.isLt
  have hp : 2 ^ k ≤ 2 ^ 12 := Nat.pow_le_pow_right (by decide) hk
  have hpos : 0 < 2 ^ k := Nat.pow_pos (by decide)
  have hhi : w &&& 0xF000#16 = (w >>> 12) <<< 12 := by
    apply BitVec.eq_of_getLsbD_eq
    intro i hi
    interval_cases i <;> simp
  have hlo : (w &&& BitVec.ofNat 16 (2 ^ k - 1)).toNat = w.toNat % 2 ^ k := by
    rw [BitVec.toNat_and, BitVec.toNat_ofNat, Nat.mod_eq_of_lt (by omega), Nat.and_two_pow_sub_one_eq_mod]
  have hdist : w &&& mask = (w &&& 0xF000#16) ||| (w &&& BitVec.ofNat 16 (2 ^ k - 1)) := by
    rw [hm]; ext i hi; simp [Bool.and_or_distrib_left]
  have hr : w.toNat % 2 ^ k < 2 ^ 12 := lt_of_lt_of_le (Nat.mod_lt _ hpos) hp
  rw [hdist, hhi, BitVec.toNat_or, hlo, BitVec.toNat_shiftLeft, BitVec.toNat_ushiftRight,
    Nat.shiftRight_eq_div_pow, Nat.shiftLeft_eq, Nat.mod_eq_of_lt (by omega), ← Nat.shiftLeft_eq,
    ← Nat.shiftLeft_add_eq_or_of_lt hr, Nat.shiftLeft_eq]

/-- A row accepts a word by its group and the low bits that its mask fixes. -/
theorem accepts_iff (r : Row) (k : Nat) (hk : k ≤ 12) (hm : r.mask = 0xF000#16 ||| BitVec.ofNat 16 (2 ^ k - 1)) (w : Word) :
    r.accepts w = true ↔ w.toNat / 4096 * 4096 + w.toNat % 2 ^ k = r.pattern.toNat := by
  rw [Row.accepts, beq_iff_eq, BitVec.toNat_eq, and_mask w r.mask k hk hm]

/-! ## Bytes of a word (20_memory.md R53) -/

theorem wordOfBytes_toNat (hi lo : Byte) : (wordOfBytes hi lo).toNat = hi.toNat * 256 + lo.toNat := by
  have h : (wordOfBytes hi lo).toNat = _ := append_toNat hi lo
  omega

@[simp] theorem bytesOfWord_length (w : Word) : (bytesOfWord w).length = 2 := rfl

/-- A word's two bytes make the word again. -/
theorem wordOfBytes_bytesOfWord (w : Word) : wordOfBytes (w.extractLsb' 8 8) (w.extractLsb' 0 8) = w := by
  have := w.isLt
  apply BitVec.eq_of_toNat_eq
  simp only [wordOfBytes_toNat, BitVec.extractLsb'_toNat, Nat.shiftRight_eq_div_pow]
  omega

/-- Decoding a word's bytes is decoding the word, with the bytes after it left over. -/
theorem decode_bytesOfWord (w : Word) (rest : List Byte) :
    decode (bytesOfWord w ++ rest) =
      match decodeWord w with
      | some i => .ok (i, rest)
      | none => .error (.unrecognizedOpcode w) :=
  congrArg (fun u => match decodeWord u with
    | some i => Except.ok (i, rest)
    | none => Except.error (DecodeError.unrecognizedOpcode u)) (wordOfBytes_bytesOfWord w)

/-- The host's reading of a table row is the decoder's reading of the word. -/
theorem decodeTableWord_eq (nbits w : Nat) : decodeTableWord nbits w = decodeWord (tableWord nbits w) := by
  have h := decode_bytesOfWord (tableWord nbits w) []
  rw [List.append_nil] at h
  rw [decodeTableWord, h]
  cases decodeWord (tableWord nbits w) <;> rfl

end Sys2Proof
end

