-- ==== Sys2Proof/Laws/State.lean ====
section
/-! SUPPORT. One lemma per field per update of the state, so that no later proof unfolds a record update. -/

namespace Sys2Proof.Machine

/-! ## setV -/

section setV
variable (s : State) (x : Reg) (b : Byte)
@[simp] theorem setV_i : (s.setV x b).i = s.i := rfl
@[simp] theorem setV_pc : (s.setV x b).pc = s.pc := rfl
@[simp] theorem setV_sp : (s.setV x b).sp = s.sp := rfl
@[simp] theorem setV_stack : (s.setV x b).stack = s.stack := rfl
@[simp] theorem setV_dt : (s.setV x b).dt = s.dt := rfl
@[simp] theorem setV_st : (s.setV x b).st = s.st := rfl
@[simp] theorem setV_key : (s.setV x b).key = s.key := rfl
@[simp] theorem setV_fb : (s.setV x b).fb = s.fb := rfl
@[simp] theorem setV_frameReady : (s.setV x b).frameReady = s.frameReady := rfl
@[simp] theorem setV_mem : (s.setV x b).mem = s.mem := rfl
@[simp] theorem setV_err : (s.setV x b).err = s.err := rfl
@[simp] theorem setV_faulted : (s.setV x b).faulted = s.faulted := rfl
@[simp] theorem setV_cfg : (s.setV x b).cfg = s.cfg := rfl
@[simp] theorem setV_rndIn : (s.setV x b).rndIn = s.rndIn := rfl
@[simp] theorem setV_draws : (s.setV x b).draws = s.draws := rfl
end setV

/-! ## writeByte -/

section writeByte
variable (s : State) (a : Nat) (b : Byte)
@[simp] theorem writeByte_v : (s.writeByte a b).v = s.v := rfl
@[simp] theorem writeByte_i : (s.writeByte a b).i = s.i := rfl
@[simp] theorem writeByte_pc : (s.writeByte a b).pc = s.pc := rfl
@[simp] theorem writeByte_sp : (s.writeByte a b).sp = s.sp := rfl
@[simp] theorem writeByte_stack : (s.writeByte a b).stack = s.stack := rfl
@[simp] theorem writeByte_dt : (s.writeByte a b).dt = s.dt := rfl
@[simp] theorem writeByte_st : (s.writeByte a b).st = s.st := rfl
@[simp] theorem writeByte_key : (s.writeByte a b).key = s.key := rfl
@[simp] theorem writeByte_fb : (s.writeByte a b).fb = s.fb := rfl
@[simp] theorem writeByte_frameReady : (s.writeByte a b).frameReady = s.frameReady := rfl
@[simp] theorem writeByte_err : (s.writeByte a b).err = s.err := rfl
@[simp] theorem writeByte_faulted : (s.writeByte a b).faulted = s.faulted := rfl
@[simp] theorem writeByte_cfg : (s.writeByte a b).cfg = s.cfg := rfl
@[simp] theorem writeByte_rndIn : (s.writeByte a b).rndIn = s.rndIn := rfl
@[simp] theorem writeByte_draws : (s.writeByte a b).draws = s.draws := rfl
end writeByte

/-! ## takeRnd -/

section takeRnd
variable (s : State)
@[simp] theorem takeRnd_v : s.takeRnd.v = s.v := rfl
@[simp] theorem takeRnd_i : s.takeRnd.i = s.i := rfl
@[simp] theorem takeRnd_pc : s.takeRnd.pc = s.pc := rfl
@[simp] theorem takeRnd_sp : s.takeRnd.sp = s.sp := rfl
@[simp] theorem takeRnd_stack : s.takeRnd.stack = s.stack := rfl
@[simp] theorem takeRnd_dt : s.takeRnd.dt = s.dt := rfl
@[simp] theorem takeRnd_st : s.takeRnd.st = s.st := rfl
@[simp] theorem takeRnd_key : s.takeRnd.key = s.key := rfl
@[simp] theorem takeRnd_fb : s.takeRnd.fb = s.fb := rfl
@[simp] theorem takeRnd_frameReady : s.takeRnd.frameReady = s.frameReady := rfl
@[simp] theorem takeRnd_mem : s.takeRnd.mem = s.mem := rfl
@[simp] theorem takeRnd_err : s.takeRnd.err = s.err := rfl
@[simp] theorem takeRnd_faulted : s.takeRnd.faulted = s.faulted := rfl
@[simp] theorem takeRnd_cfg : s.takeRnd.cfg = s.cfg := rfl
end takeRnd

/-! ## raise -/

section raise
variable (k : ErrorKind) (d : Nat) (s : State)
@[simp] theorem raise_v : (raise k d s).v = s.v := rfl
@[simp] theorem raise_i : (raise k d s).i = s.i := rfl
@[simp] theorem raise_pc : (raise k d s).pc = s.pc := rfl
@[simp] theorem raise_sp : (raise k d s).sp = s.sp := rfl
@[simp] theorem raise_stack : (raise k d s).stack = s.stack := rfl
@[simp] theorem raise_dt : (raise k d s).dt = s.dt := rfl
@[simp] theorem raise_st : (raise k d s).st = s.st := rfl
@[simp] theorem raise_key : (raise k d s).key = s.key := rfl
@[simp] theorem raise_fb : (raise k d s).fb = s.fb := rfl
@[simp] theorem raise_frameReady : (raise k d s).frameReady = s.frameReady := rfl
@[simp] theorem raise_mem : (raise k d s).mem = s.mem := rfl
@[simp] theorem raise_cfg : (raise k d s).cfg = s.cfg := rfl
@[simp] theorem raise_rndIn : (raise k d s).rndIn = s.rndIn := rfl
@[simp] theorem raise_draws : (raise k d s).draws = s.draws := rfl
end raise

/-! ## raiseFetch -/

section raiseFetch
variable (s : State)
@[simp] theorem raiseFetch_v : (raiseFetch s).v = s.v := rfl
@[simp] theorem raiseFetch_i : (raiseFetch s).i = s.i := rfl
@[simp] theorem raiseFetch_pc : (raiseFetch s).pc = s.pc := rfl
@[simp] theorem raiseFetch_sp : (raiseFetch s).sp = s.sp := rfl
@[simp] theorem raiseFetch_stack : (raiseFetch s).stack = s.stack := rfl
@[simp] theorem raiseFetch_dt : (raiseFetch s).dt = s.dt := rfl
@[simp] theorem raiseFetch_st : (raiseFetch s).st = s.st := rfl
@[simp] theorem raiseFetch_key : (raiseFetch s).key = s.key := rfl
@[simp] theorem raiseFetch_fb : (raiseFetch s).fb = s.fb := rfl
@[simp] theorem raiseFetch_frameReady : (raiseFetch s).frameReady = s.frameReady := rfl
@[simp] theorem raiseFetch_mem : (raiseFetch s).mem = s.mem := rfl
@[simp] theorem raiseFetch_cfg : (raiseFetch s).cfg = s.cfg := rfl
@[simp] theorem raiseFetch_rndIn : (raiseFetch s).rndIn = s.rndIn := rfl
@[simp] theorem raiseFetch_draws : (raiseFetch s).draws = s.draws := rfl
end raiseFetch

/-! ## fetched -/

section fetched
variable (s : State)
@[simp] theorem fetched_v : s.fetched.v = s.v := rfl
@[simp] theorem fetched_i : s.fetched.i = s.i := rfl
@[simp] theorem fetched_sp : s.fetched.sp = s.sp := rfl
@[simp] theorem fetched_stack : s.fetched.stack = s.stack := rfl
@[simp] theorem fetched_dt : s.fetched.dt = s.dt := rfl
@[simp] theorem fetched_st : s.fetched.st = s.st := rfl
@[simp] theorem fetched_key : s.fetched.key = s.key := rfl
@[simp] theorem fetched_fb : s.fetched.fb = s.fb := rfl
@[simp] theorem fetched_frameReady : s.fetched.frameReady = s.frameReady := rfl
@[simp] theorem fetched_mem : s.fetched.mem = s.mem := rfl
@[simp] theorem fetched_faulted : s.fetched.faulted = s.faulted := rfl
@[simp] theorem fetched_cfg : s.fetched.cfg = s.cfg := rfl
@[simp] theorem fetched_rndIn : s.fetched.rndIn = s.rndIn := rfl
@[simp] theorem fetched_draws : s.fetched.draws = s.draws := rfl
end fetched

/-! ## endStep -/

section endStep
variable (s : State)
@[simp] theorem endStep_v : s.endStep.v = s.v := rfl
@[simp] theorem endStep_i : s.endStep.i = s.i := rfl
@[simp] theorem endStep_pc : s.endStep.pc = s.pc := rfl
@[simp] theorem endStep_sp : s.endStep.sp = s.sp := rfl
@[simp] theorem endStep_stack : s.endStep.stack = s.stack := rfl
@[simp] theorem endStep_key : s.endStep.key = s.key := rfl
@[simp] theorem endStep_fb : s.endStep.fb = s.fb := rfl
@[simp] theorem endStep_frameReady : s.endStep.frameReady = s.frameReady := rfl
@[simp] theorem endStep_mem : s.endStep.mem = s.mem := rfl
@[simp] theorem endStep_err : s.endStep.err = s.err := rfl
@[simp] theorem endStep_faulted : s.endStep.faulted = s.faulted := rfl
@[simp] theorem endStep_cfg : s.endStep.cfg = s.cfg := rfl
@[simp] theorem endStep_draws : s.endStep.draws = s.draws := rfl
end endStep

/-! ## setKey -/

section setKey
variable (s : State) (k : Key) (b : Bool)
@[simp] theorem setKey_v : (s.setKey k b).v = s.v := rfl
@[simp] theorem setKey_i : (s.setKey k b).i = s.i := rfl
@[simp] theorem setKey_pc : (s.setKey k b).pc = s.pc := rfl
@[simp] theorem setKey_sp : (s.setKey k b).sp = s.sp := rfl
@[simp] theorem setKey_stack : (s.setKey k b).stack = s.stack := rfl
@[simp] theorem setKey_dt : (s.setKey k b).dt = s.dt := rfl
@[simp] theorem setKey_st : (s.setKey k b).st = s.st := rfl
@[simp] theorem setKey_fb : (s.setKey k b).fb = s.fb := rfl
@[simp] theorem setKey_frameReady : (s.setKey k b).frameReady = s.frameReady := rfl
@[simp] theorem setKey_mem : (s.setKey k b).mem = s.mem := rfl
@[simp] theorem setKey_err : (s.setKey k b).err = s.err := rfl
@[simp] theorem setKey_faulted : (s.setKey k b).faulted = s.faulted := rfl
@[simp] theorem setKey_cfg : (s.setKey k b).cfg = s.cfg := rfl
@[simp] theorem setKey_rndIn : (s.setKey k b).rndIn = s.rndIn := rfl
@[simp] theorem setKey_draws : (s.setKey k b).draws = s.draws := rfl
end setKey

/-! ## clearFrameReady -/

section clearFrameReady
variable (s : State)
@[simp] theorem clearFrameReady_v : s.clearFrameReady.v = s.v := rfl
@[simp] theorem clearFrameReady_i : s.clearFrameReady.i = s.i := rfl
@[simp] theorem clearFrameReady_pc : s.clearFrameReady.pc = s.pc := rfl
@[simp] theorem clearFrameReady_sp : s.clearFrameReady.sp = s.sp := rfl
@[simp] theorem clearFrameReady_stack : s.clearFrameReady.stack = s.stack := rfl
@[simp] theorem clearFrameReady_dt : s.clearFrameReady.dt = s.dt := rfl
@[simp] theorem clearFrameReady_st : s.clearFrameReady.st = s.st := rfl
@[simp] theorem clearFrameReady_key : s.clearFrameReady.key = s.key := rfl
@[simp] theorem clearFrameReady_fb : s.clearFrameReady.fb = s.fb := rfl
@[simp] theorem clearFrameReady_mem : s.clearFrameReady.mem = s.mem := rfl
@[simp] theorem clearFrameReady_err : s.clearFrameReady.err = s.err := rfl
@[simp] theorem clearFrameReady_faulted : s.clearFrameReady.faulted = s.faulted := rfl
@[simp] theorem clearFrameReady_cfg : s.clearFrameReady.cfg = s.cfg := rfl
@[simp] theorem clearFrameReady_rndIn : s.clearFrameReady.rndIn = s.rndIn := rfl
@[simp] theorem clearFrameReady_draws : s.clearFrameReady.draws = s.draws := rfl
end clearFrameReady

/-! ## skipIf -/

section skipIf
variable (s : State) (c : Bool)
@[simp] theorem skipIf_v : (s.skipIf c).v = s.v := by cases c <;> rfl
@[simp] theorem skipIf_i : (s.skipIf c).i = s.i := by cases c <;> rfl
@[simp] theorem skipIf_sp : (s.skipIf c).sp = s.sp := by cases c <;> rfl
@[simp] theorem skipIf_stack : (s.skipIf c).stack = s.stack := by cases c <;> rfl
@[simp] theorem skipIf_dt : (s.skipIf c).dt = s.dt := by cases c <;> rfl
@[simp] theorem skipIf_st : (s.skipIf c).st = s.st := by cases c <;> rfl
@[simp] theorem skipIf_key : (s.skipIf c).key = s.key := by cases c <;> rfl
@[simp] theorem skipIf_fb : (s.skipIf c).fb = s.fb := by cases c <;> rfl
@[simp] theorem skipIf_frameReady : (s.skipIf c).frameReady = s.frameReady := by cases c <;> rfl
@[simp] theorem skipIf_mem : (s.skipIf c).mem = s.mem := by cases c <;> rfl
@[simp] theorem skipIf_err : (s.skipIf c).err = s.err := by cases c <;> rfl
@[simp] theorem skipIf_faulted : (s.skipIf c).faulted = s.faulted := by cases c <;> rfl
@[simp] theorem skipIf_cfg : (s.skipIf c).cfg = s.cfg := by cases c <;> rfl
@[simp] theorem skipIf_rndIn : (s.skipIf c).rndIn = s.rndIn := by cases c <;> rfl
@[simp] theorem skipIf_draws : (s.skipIf c).draws = s.draws := by cases c <;> rfl
end skipIf

/-! ## resultThenFlag -/

section resultThenFlag
variable (x : Reg) (r : Byte) (c : Bool) (s : State)
@[simp] theorem resultThenFlag_i : (resultThenFlag x r c s).i = s.i := rfl
@[simp] theorem resultThenFlag_pc : (resultThenFlag x r c s).pc = s.pc := rfl
@[simp] theorem resultThenFlag_sp : (resultThenFlag x r c s).sp = s.sp := rfl
@[simp] theorem resultThenFlag_stack : (resultThenFlag x r c s).stack = s.stack := rfl
@[simp] theorem resultThenFlag_dt : (resultThenFlag x r c s).dt = s.dt := rfl
@[simp] theorem resultThenFlag_st : (resultThenFlag x r c s).st = s.st := rfl
@[simp] theorem resultThenFlag_key : (resultThenFlag x r c s).key = s.key := rfl
@[simp] theorem resultThenFlag_fb : (resultThenFlag x r c s).fb = s.fb := rfl
@[simp] theorem resultThenFlag_frameReady : (resultThenFlag x r c s).frameReady = s.frameReady := rfl
@[simp] theorem resultThenFlag_mem : (resultThenFlag x r c s).mem = s.mem := rfl
@[simp] theorem resultThenFlag_err : (resultThenFlag x r c s).err = s.err := rfl
@[simp] theorem resultThenFlag_faulted : (resultThenFlag x r c s).faulted = s.faulted := rfl
@[simp] theorem resultThenFlag_cfg : (resultThenFlag x r c s).cfg = s.cfg := rfl
@[simp] theorem resultThenFlag_rndIn : (resultThenFlag x r c s).rndIn = s.rndIn := rfl
@[simp] theorem resultThenFlag_draws : (resultThenFlag x r c s).draws = s.draws := rfl
end resultThenFlag

/-! ## flagThenResult -/

section flagThenResult
variable (x y : Reg) (c : Byte → Byte → Bool) (op : Byte → Byte → Byte) (s : State)
@[simp] theorem flagThenResult_i : (flagThenResult x y c op s).i = s.i := by
  unfold flagThenResult; split <;> rfl
@[simp] theorem flagThenResult_pc : (flagThenResult x y c op s).pc = s.pc := by
  unfold flagThenResult; split <;> rfl
@[simp] theorem flagThenResult_sp : (flagThenResult x y c op s).sp = s.sp := by
  unfold flagThenResult; split <;> rfl
@[simp] theorem flagThenResult_stack : (flagThenResult x y c op s).stack = s.stack := by
  unfold flagThenResult; split <;> rfl
@[simp] theorem flagThenResult_dt : (flagThenResult x y c op s).dt = s.dt := by
  unfold flagThenResult; split <;> rfl
@[simp] theorem flagThenResult_st : (flagThenResult x y c op s).st = s.st := by
  unfold flagThenResult; split <;> rfl
@[simp] theorem flagThenResult_key : (flagThenResult x y c op s).key = s.key := by
  unfold flagThenResult; split <;> rfl
@[simp] theorem flagThenResult_fb : (flagThenResult x y c op s).fb = s.fb := by
  unfold flagThenResult; split <;> rfl
@[simp] theorem flagThenResult_frameReady : (flagThenResult x y c op s).frameReady = s.frameReady := by
  unfold flagThenResult; split <;> rfl
@[simp] theorem flagThenResult_mem : (flagThenResult x y c op s).mem = s.mem := by
  unfold flagThenResult; split <;> rfl
@[simp] theorem flagThenResult_err : (flagThenResult x y c op s).err = s.err := by
  unfold flagThenResult; split <;> rfl
@[simp] theorem flagThenResult_faulted : (flagThenResult x y c op s).faulted = s.faulted := by
  unfold flagThenResult; split <;> rfl
@[simp] theorem flagThenResult_cfg : (flagThenResult x y c op s).cfg = s.cfg := by
  unfold flagThenResult; split <;> rfl
@[simp] theorem flagThenResult_rndIn : (flagThenResult x y c op s).rndIn = s.rndIn := by
  unfold flagThenResult; split <;> rfl
@[simp] theorem flagThenResult_draws : (flagThenResult x y c op s).draws = s.draws := by
  unfold flagThenResult; split <;> rfl
end flagThenResult

/-! ## The fields an update writes -/

@[simp] theorem takeRnd_rndIn (s : State) : s.takeRnd.rndIn = none := rfl
@[simp] theorem takeRnd_draws (s : State) : s.takeRnd.draws = s.draws + 1 := rfl
@[simp] theorem raise_faulted (k : ErrorKind) (d : Nat) (s : State) : (raise k d s).faulted = true := rfl
@[simp] theorem raiseFetch_faulted (s : State) : (raiseFetch s).faulted = true := rfl
@[simp] theorem fetched_err (s : State) : s.fetched.err = none := rfl
@[simp] theorem fetched_pc (s : State) : s.fetched.pc = s.pc + 2 := rfl
@[simp] theorem endStep_dt (s : State) : s.endStep.dt = tick s.dt := rfl
@[simp] theorem endStep_st (s : State) : s.endStep.st = tick s.st := rfl
@[simp] theorem endStep_rndIn (s : State) : s.endStep.rndIn = none := rfl
@[simp] theorem clearFrameReady_frameReady (s : State) : s.clearFrameReady.frameReady = false := rfl
@[simp] theorem skipIf_pc (s : State) (c : Bool) : (s.skipIf c).pc = if c then s.pc + 2 else s.pc := by cases c <;> rfl
@[simp] theorem setV_v (s : State) (x : Reg) (b : Byte) : (s.setV x b).v = s.v.set x.val b x.isLt := rfl
@[simp] theorem writeByte_mem (s : State) (a : Nat) (b : Byte) :
    (s.writeByte a b).mem = Memory.write s.cfg.font s.mem a b := rfl

/-! ## Reads of one register or one byte, where nothing they read has changed -/

theorem getV_congr {s t : State} (h : t.v = s.v) (r : Reg) : t.getV r = s.getV r := by simp only [State.getV, h]

theorem readByte_congr {s t : State} (hm : t.mem = s.mem) (hc : t.cfg = s.cfg) (a : Nat) :
    t.readByte a = s.readByte a := by simp only [State.readByte, hm, hc]

/-- Two states that agree on every field are equal. -/
theorem State.ext_fields {s t : State} (hv : t.v = s.v) (hi : t.i = s.i) (hpc : t.pc = s.pc) (hsp : t.sp = s.sp)
    (hstack : t.stack = s.stack) (hdt : t.dt = s.dt) (hst : t.st = s.st) (hkey : t.key = s.key) (hfb : t.fb = s.fb)
    (hfr : t.frameReady = s.frameReady) (hmem : t.mem = s.mem) (herr : t.err = s.err) (hf : t.faulted = s.faulted)
    (hcfg : t.cfg = s.cfg) (hr : t.rndIn = s.rndIn) (hd : t.draws = s.draws) : t = s := by
  cases s; cases t; simp_all

end Sys2Proof.Machine
end

