-- ==== Sys2Proof/Laws/Memory.lean ====
section
/-! SUPPORT. Memory: a read after a write, and that every operation keeps the canonical form. -/

namespace Sys2Proof.Machine

/-! ## Reads after writes -/

theorem Memory.read_insert (font : Font) (a : Nat) (v : Byte) (m : Memory) (b : Nat) :
    Memory.read font (m.insert a v) b = if b = a then v else Memory.read font m b := by
  induction m with
  | nil => simp [Memory.insert, Memory.read]
  | cons c m ih =>
    obtain ⟨c, u⟩ := c
    simp only [Memory.insert]
    split
    · simp [Memory.read]
    · split
      · subst_vars
        by_cases h : b = c <;> simp [Memory.read, h]
      · by_cases h : b = c
        · simp [Memory.read, h, show ¬ c = a by omega]
        · simp [Memory.read, h, ih]

theorem Memory.read_erase (font : Font) (a : Nat) (m : Memory) (b : Nat) :
    Memory.read font (m.erase a) b = if b = a then Memory.unlisted font a else Memory.read font m b := by
  induction m with
  | nil => by_cases h : b = a <;> simp [Memory.erase, Memory.read, h]
  | cons c m ih =>
    obtain ⟨c, u⟩ := c
    simp only [Memory.erase]
    split
    · subst_vars
      by_cases h : b = c
      · subst h; simpa using ih
      · simp [Memory.read, ih, h]
    · by_cases h : b = c
      · simp [Memory.read, h, show ¬ c = a by omega]
      · simp [Memory.read, ih, h]

/-- MemRead after MemWrite, for any memory: the value at the address written, where it is memory; else as before. -/
theorem Memory.read_write (font : Font) (m : Memory) (a : Nat) (v : Byte) (b : Nat) :
    Memory.read font (m.write font a v) b = if a < memSize ∧ b = a then v else Memory.read font m b := by
  unfold Memory.write
  split
  · split
    · subst_vars; simp [Memory.read_erase, *]
    · simp [Memory.read_insert, *]
  · simp [*]

/-! ## The canonical form -/

theorem Memory.mem_insert {a : Nat} {v : Byte} {m : Memory} {c : Host.Cell} (h : c ∈ m.insert a v) :
    c = (a, v) ∨ c ∈ m := by
  induction m with
  | nil => simpa [Memory.insert] using h
  | cons d m ih =>
    simp only [Memory.insert] at h
    split at h
    · simpa using h
    · split at h
      · simp only [List.mem_cons] at h ⊢; tauto
      · simp only [List.mem_cons] at h ⊢
        rcases h with h | h
        · exact .inr (.inl h)
        · rcases ih h with h | h
          · exact .inl h
          · exact .inr (.inr h)

theorem Memory.mem_erase {a : Nat} {m : Memory} {c : Host.Cell} (h : c ∈ m.erase a) : c ∈ m := by
  induction m with
  | nil => simp [Memory.erase] at h
  | cons d m ih =>
    simp only [Memory.erase] at h
    split at h
    · exact List.mem_cons_of_mem _ (ih h)
    · rcases List.mem_cons.1 h with h | h
      · exact h ▸ List.mem_cons_self
      · exact List.mem_cons_of_mem _ (ih h)

theorem Memory.wf_insert {font : Font} {m : Memory} (h : Memory.wf font m) {a : Nat} {v : Byte} (ha : a < memSize)
    (hv : v ≠ Memory.unlisted font a) : Memory.wf font (m.insert a v) := by
  refine ⟨?_, fun c hc => ?_⟩
  · have hp := h.1
    clear h hv ha
    induction m with
    | nil => simp [Memory.insert]
    | cons d m ih =>
      obtain ⟨d, u⟩ := d
      rw [List.pairwise_cons] at hp
      simp only [Memory.insert]
      split
      · refine List.pairwise_cons.2 ⟨fun c hc => ?_, List.pairwise_cons.2 hp⟩
        rcases List.mem_cons.1 hc with rfl | hc
        · assumption
        · have := hp.1 c hc; simp only at this ⊢; omega
      · split
        · subst_vars; exact List.pairwise_cons.2 hp
        · refine List.pairwise_cons.2 ⟨fun c hc => ?_, ih hp.2⟩
          rcases Memory.mem_insert hc with rfl | hc
          · simp only; omega
          · exact hp.1 c hc
  · rcases Memory.mem_insert hc with rfl | hc
    · exact ⟨ha, hv⟩
    · exact h.2 c hc

theorem Memory.wf_erase {font : Font} {m : Memory} (h : Memory.wf font m) (a : Nat) : Memory.wf font (m.erase a) := by
  refine ⟨?_, fun c hc => h.2 c (Memory.mem_erase hc)⟩
  have hp := h.1
  clear h
  induction m with
  | nil => simp [Memory.erase]
  | cons d m ih =>
    rw [List.pairwise_cons] at hp
    simp only [Memory.erase]
    split
    · exact ih hp.2
    · exact List.pairwise_cons.2 ⟨fun c hc => hp.1 c (Memory.mem_erase hc), ih hp.2⟩

theorem Memory.wf_write {font : Font} {m : Memory} (h : Memory.wf font m) (a : Nat) (v : Byte) :
    Memory.wf font (m.write font a v) := by
  unfold Memory.write
  split
  · split
    · exact Memory.wf_erase h a
    · exact Memory.wf_insert h ‹_› ‹_›
  · exact h

theorem reset_memory_wf : Memory.wf State.reset.cfg.font State.reset.mem := ⟨List.Pairwise.nil, by simp [State.reset]⟩

/-! ## The state's memory -/

theorem readByte_writeByte (s : State) (a : Nat) (v : Byte) (b : Nat) :
    (s.writeByte a v).readByte b = if a < memSize ∧ b = a then v else s.readByte b :=
  Memory.read_write ..

/-- Storing bytes changes memory alone. -/
theorem writeBytes_only_mem (s : State) (base : Nat) (bs : List Byte) :
    s.writeBytes base bs = { s with mem := (s.writeBytes base bs).mem } := by
  induction bs generalizing s base with
  | nil => rfl
  | cons b bs ih => rw [State.writeBytes, ih]; rfl

@[simp] theorem writeBytes_cfg (s : State) (base : Nat) (bs : List Byte) : (s.writeBytes base bs).cfg = s.cfg := by
  rw [writeBytes_only_mem]

/-- A byte after bytes were stored from `base`: the stored byte inside, as before outside (20_memory.md R57). -/
theorem readByte_writeBytes (s : State) (base : Nat) (bs : List Byte) (a : Nat) :
    (s.writeBytes base bs).readByte a =
      if h : base ≤ a ∧ a < base + bs.length ∧ a < memSize then bs[a - base] else s.readByte a := by
  induction bs generalizing s base with
  | nil => simp only [State.writeBytes, List.length_nil]; rw [dif_neg (by omega)]
  | cons b bs ih =>
    rw [State.writeBytes, ih, readByte_writeByte]
    by_cases h : base + 1 ≤ a ∧ a < base + 1 + bs.length ∧ a < memSize
    · rw [dif_pos h, dif_pos (by simp only [List.length_cons]; omega)]
      have e : a - base = (a - (base + 1)) + 1 := by omega
      simp only [e, List.getElem_cons_succ]
    · rw [dif_neg h]
      by_cases h2 : base < memSize ∧ a = base
      · obtain ⟨h2, rfl⟩ := h2
        simp [h2]
      · rw [if_neg h2, dif_neg (by simp only [List.length_cons]; omega)]

theorem writeByte_wf {s : State} (h : Memory.wf s.cfg.font s.mem) (a : Nat) (v : Byte) :
    Memory.wf (s.writeByte a v).cfg.font (s.writeByte a v).mem := Memory.wf_write h a v

theorem writeBytes_wf {s : State} (h : Memory.wf s.cfg.font s.mem) (base : Nat) (bs : List Byte) :
    Memory.wf (s.writeBytes base bs).cfg.font (s.writeBytes base bs).mem := by
  induction bs generalizing s base with
  | nil => exact h
  | cons b bs ih => exact ih (writeByte_wf h base b) _

end Sys2Proof.Machine
end

