-- ==== Sys2Proof/Laws/Ops.lean ====
section
/-! SUPPORT. One lemma per shared operation over registers, flags, checks, keys, timers and errors: what it can do. -/

namespace Sys2Proof.Machine

/-! ## Registers -/

theorem getV_setV (s : State) (x : Reg) (b : Byte) (r : Reg) : (s.setV x b).getV r = if r = x then b else s.getV r := by
  simp only [State.getV, State.setV, Vector.get_eq_getElem, Vector.getElem_set, Fin.ext_iff]
  by_cases h : x.val = r.val
  · rw [if_pos h, if_pos h.symm]
  · rw [if_neg h, if_neg (Ne.symm h)]

@[simp] theorem getV_setV_self (s : State) (x : Reg) (b : Byte) : (s.setV x b).getV x = b := by simp [getV_setV]

@[simp] theorem getV_setV_ne (s : State) {x r : Reg} (b : Byte) (h : r ≠ x) : (s.setV x b).getV r = s.getV r := by
  simp [getV_setV, h]

@[simp] theorem readByte_setV (s : State) (x : Reg) (b : Byte) (a : Nat) : (s.setV x b).readByte a = s.readByte a := rfl

/-- A register write changes the registers alone. -/
theorem setV_only_v (s : State) (x : Reg) (b : Byte) : s.setV x b = { s with v := (s.setV x b).v } := rfl

/-- Equal registers, read one by one, are equal register files. -/
theorem v_ext {s t : State} (h : ∀ r, t.getV r = s.getV r) : t.v = s.v :=
  Vector.ext fun k hk => h ⟨k, hk⟩

/-- `skipIf` moves pc by 2 or leaves the state. -/
theorem skipIf_eq (s : State) (c : Bool) : s.skipIf c = { s with pc := if c then s.pc + 2 else s.pc } := by
  cases c <;> rfl

/-! ## The ALU's two write orders (42_alu.md R95, R96) -/

/-- 8xy4: VF holds the flag whatever x is, and another destination holds the result. -/
theorem getV_resultThenFlag (x : Reg) (b : Byte) (c : Bool) (s : State) (r : Reg) :
    (resultThenFlag x b c s).getV r = if r = vf then flag c else if r = x then b else s.getV r := by
  simp only [resultThenFlag, getV_setV]

/-- The operands that the result of a flag-first instruction is computed from. -/
def resultOperand (s : State) (f : Byte) (r : Reg) : Byte :=
  match s.cfg.vfReading with
  | .latched => s.getV r
  | .sequential => if r = vf then f else s.getV r

theorem resultOperand_latched {s : State} (h : s.cfg.vfReading = .latched) (f : Byte) (r : Reg) :
    resultOperand s f r = s.getV r := by simp only [resultOperand, h]

theorem resultOperand_sequential_vf {s : State} (h : s.cfg.vfReading = .sequential) (f : Byte) :
    resultOperand s f 0xF = f := by simp only [resultOperand, h]; exact if_pos rfl

theorem resultOperand_sequential_ne {s : State} (h : s.cfg.vfReading = .sequential) (f : Byte) {r : Reg} (hr : r ≠ 0xF) :
    resultOperand s f r = s.getV r := by simp only [resultOperand, h]; exact if_neg hr

/-- 8xy5, 8xy6, 8xy7, 8xyE: the destination holds the result, VF (if it is not the destination) the flag. -/
theorem getV_flagThenResult (x y : Reg) (c : Byte → Byte → Bool) (op : Byte → Byte → Byte) (s : State) (r : Reg) :
    (flagThenResult x y c op s).getV r =
      if r = x then
        op (resultOperand s (flag (c (s.getV x) (s.getV y))) x) (resultOperand s (flag (c (s.getV x) (s.getV y))) y)
      else if r = vf then flag (c (s.getV x) (s.getV y)) else s.getV r := by
  unfold flagThenResult resultOperand
  cases s.cfg.vfReading <;> simp only [getV_setV]

theorem flagThenResult_only_v (x y : Reg) (c : Byte → Byte → Bool) (op : Byte → Byte → Byte) (s : State) :
    flagThenResult x y c op s = { s with v := (flagThenResult x y c op s).v } := by
  unfold flagThenResult
  cases s.cfg.vfReading <;> simp only [State.setV]

/-! ## The checks of an access (20_memory.md R49, R50) -/

theorem mem_accessAddrs {base n a : Nat} : a ∈ accessAddrs base n ↔ base ≤ a ∧ a < base + n := by
  simp only [accessAddrs, List.mem_map, List.mem_range]
  constructor
  · rintro ⟨k, hk, rfl⟩; omega
  · intro h; exact ⟨a - base, by omega, by omega⟩

/-- The first address of an access at or above a bound. -/
theorem find_accessAddrs_ge (p : Nat → Bool) (lo : Nat) (base n : Nat)
    (hp : ∀ a, base ≤ a → a < base + n → (p a = true ↔ lo ≤ a)) :
    (accessAddrs base n).find? p = if 0 < n ∧ lo < base + n then some (max base lo) else none := by
  induction n with
  | zero => simp [accessAddrs]
  | succ n ih =>
    have step : accessAddrs base (n + 1) = accessAddrs base n ++ [base + n] := by
      simp [accessAddrs, List.range_succ]
    rw [step, List.find?_append, ih fun a h1 h2 => hp a h1 (by omega)]
    have hlast := hp (base + n) (by omega) (by omega)
    by_cases h : 0 < n ∧ lo < base + n
    · rw [if_pos h, if_pos (by omega)]; rfl
    · rw [if_neg h]
      by_cases h2 : lo ≤ base + n
      · have : n = 0 ∨ lo = base + n := by omega
        rw [if_pos (by omega)]
        simp only [Option.none_or, List.find?_cons, hlast.2 h2]
        congr 1; omega
      · rw [if_neg (by omega)]
        have hf : p (base + n) = false := by simpa [h2] using hlast
        simp [hf]

/-- The range check in closed form: it fails where the access passes 0xFFF, at the first address that is not memory. -/
theorem readError_accessAddrs (base n : Nat) :
    readError (accessAddrs base n) =
      if 0 < n ∧ 0x1000 < base + n then some (.memoryOutOfRange, max base 0x1000) else none := by
  unfold readError
  rw [find_accessAddrs_ge outOfRange 0x1000 base n (fun a _ _ => by simp [outOfRange]; omega)]
  split <;> rfl

/-- The first font address of an access that stays inside memory. -/
theorem find_inFont_accessAddrs (base n : Nat) :
    (accessAddrs base n).find? inFont =
      if 0 < n ∧ base < 0xA0 ∧ 0x50 < base + n then some (max base 0x50) else none := by
  by_cases hb : base < 0xA0
  · induction n with
    | zero => simp [accessAddrs]
    | succ n ih =>
      have step : accessAddrs base (n + 1) = accessAddrs base n ++ [base + n] := by
        simp [accessAddrs, List.range_succ]
      rw [step, List.find?_append, ih]
      by_cases h : 0 < n ∧ base < 0xA0 ∧ 0x50 < base + n
      · rw [if_pos h, if_pos (by omega)]; rfl
      · rw [if_neg h]
        by_cases h2 : 0x50 ≤ base + n
        · rw [if_pos (by omega)]
          simp only [Option.none_or, List.find?_cons, show inFont (base + n) = true by simp [inFont]; omega]
          congr 1; omega
        · rw [if_neg (by omega)]
          simp [show inFont (base + n) = false by simp [inFont]; omega]
  · rw [if_neg (by omega), List.find?_eq_none]
    intro a ha
    have := mem_accessAddrs.1 ha
    simp [inFont]; omega

/-- The check of a write in closed form. -/
theorem writeError_accessAddrs (policy : FontWritePolicy) (base n : Nat) :
    writeError policy (accessAddrs base n) =
      if 0 < n ∧ 0x1000 < base + n then some (.memoryOutOfRange, max base 0x1000)
      else if policy = .fault ∧ 0 < n ∧ base < 0xA0 ∧ 0x50 < base + n then
        some (.fontWriteViolation, max base 0x50)
      else none := by
  unfold writeError
  rw [readError_accessAddrs, find_inFont_accessAddrs]
  by_cases h : 0 < n ∧ 0x1000 < base + n
  · simp only [if_pos h]
  · simp only [if_neg h]
    cases policy
    · by_cases h3 : 0 < n ∧ base < 0xA0 ∧ 0x50 < base + n
      · simp only [if_pos h3, true_and, Option.map_some]
      · simp only [if_neg h3, true_and, Option.map_none]
    · simp only [reduceCtorEq, false_and, if_false]

/-- What `raiseOr` leaves: the report of the failed check, or the effect. -/
theorem raiseOr_cases (check : Option (ErrorKind × Nat)) (s effect : State) :
    (∃ k d, check = some (k, d) ∧ raiseOr check s effect = raise k d s) ∨
      (check = none ∧ raiseOr check s effect = effect) := by
  cases check with
  | none => exact .inr ⟨rfl, rfl⟩
  | some e => exact .inl ⟨e.1, e.2, rfl, rfl⟩

/-! ## Register ranges, keys, digits, timers -/

theorem mem_regsUpTo {x r : Reg} : r ∈ regsUpTo x ↔ r ≤ x := by simp [regsUpTo]

theorem regsUpTo_length (x : Reg) : (regsUpTo x).length = x.val + 1 := by revert x; decide

/-- The k-th register of V[0..x] is V[k]. -/
theorem regsUpTo_getElem (x : Reg) (k : Nat) (h : k < (regsUpTo x).length) : ((regsUpTo x)[k]).val = k := by
  have key : ∀ x : Reg, ∀ k : Fin 16, ∀ h : k.val < (regsUpTo x).length, ((regsUpTo x)[k.val]).val = k.val := by decide
  have := regsUpTo_length x
  exact key x ⟨k, by omega⟩ h

/-- Writing a list of registers one after another, each with a value of its own. -/
theorem getV_foldl_setV (f : Reg → Byte) (rs : List Reg) (s : State) (r : Reg) :
    (rs.foldl (fun t q => t.setV q (f q)) s).getV r = if r ∈ rs then f r else s.getV r := by
  induction rs generalizing s with
  | nil => simp
  | cons q rs ih =>
    rw [List.foldl_cons, ih, getV_setV]
    by_cases h : r ∈ rs
    · simp [h]
    · by_cases h2 : r = q <;> simp [h, h2]

theorem foldl_setV_only_v (f : Reg → Byte) (rs : List Reg) (s : State) :
    rs.foldl (fun t q => t.setV q (f q)) s = { s with v := (rs.foldl (fun t q => t.setV q (f q)) s).v } := by
  induction rs generalizing s with
  | nil => rfl
  | cons q rs ih => rw [List.foldl_cons, ih]; rfl

theorem keyOf_eq_none {b : Byte} : keyOf b = none ↔ 15 < b.toNat := by
  unfold keyOf; split <;> simp <;> omega

theorem keyOf_eq_some {b : Byte} {k : Key} : keyOf b = some k ↔ b.toNat = k.val := by
  unfold keyOf; split
  · simp [Fin.ext_iff]
  · have := k.isLt; simp; omega

/-- The key that Fx0A takes is pressed and no lower key is. -/
theorem lowestPressed_eq_some {key : Vector Bool 16} {k : Key} (h : lowestPressed key = some k) :
    key.get k = true ∧ ∀ j, j < k → key.get j = false := by
  unfold lowestPressed at h
  rw [List.find?_eq_some_iff_getElem] at h
  obtain ⟨hk, i, hi, e, hlt⟩ := h
  refine ⟨hk, fun j hj => ?_⟩
  have hi' : i = k.val := by rw [← e]; simp
  have := hlt j.val (by rw [hi']; exact hj)
  simpa using this

theorem lowestPressed_eq_none {key : Vector Bool 16} : lowestPressed key = none ↔ ∀ k, key.get k = false := by
  simp [lowestPressed]

theorem tick_toNat (t : Byte) : (tick t).toNat = t.toNat - 1 := by
  unfold tick; split
  · simp_all
  · have : t.toNat ≠ 0 := fun h => ‹¬ t = 0#8› (BitVec.eq_of_toNat_eq (by simpa using h))
    have := t.isLt
    bv_omega

/-! ## Errors -/

/-- The report of `raise`: its kind, its detail and the fetch address (60_exceptions.md R128). -/
theorem raise_err (k : ErrorKind) (d : Nat) (s : State) :
    (raise k d s).err = some { kind := k, a := s.pc - 2, w := some (s.readWord (s.pc - 2).toNat), detail := d } := rfl

/-- `raise` writes the report and the model-only bit, and nothing else (60_exceptions.md R130). -/
theorem raise_only_report (k : ErrorKind) (d : Nat) (s : State) :
    raise k d s = { s with err := (raise k d s).err, faulted := true } := rfl

/-! ## The framebuffer -/

theorem cell_toggle (fb : Framebuffer) (cx cx' : Fin 64) (cy cy' : Fin 32) :
    (fb.toggle cx cy).cell cx' cy' = if cx' = cx ∧ cy' = cy then !fb.cell cx cy else fb.cell cx' cy' := by
  simp only [Framebuffer.cell, Framebuffer.toggle, Vector.get_eq_getElem, Vector.getElem_set, Fin.ext_iff]
  by_cases h : cx.val = cx'.val
  · by_cases h2 : cy.val = cy'.val
    · simp [h, h2]
    · have : ¬ cy'.val = cy.val := Ne.symm h2
      simp [h, h2, this]
  · have : ¬ cx'.val = cx.val := Ne.symm h
    simp [h, this]

@[simp] theorem cell_clear (cx : Fin 64) (cy : Fin 32) : Framebuffer.clear.cell cx cy = false := by
  simp [Framebuffer.clear, Framebuffer.cell, Vector.get_eq_getElem]

/-- Framebuffers with equal cells are equal. -/
theorem fb_ext {f g : Framebuffer} (h : ∀ cx cy, f.cell cx cy = g.cell cx cy) : f = g :=
  Vector.ext fun i hi => Vector.ext fun j hj => h ⟨i, hi⟩ ⟨j, hj⟩

end Sys2Proof.Machine
end

