-- ==== Sys2Proof/Laws/Draw.lean ====
section
/-! SUPPORT. The sprite engine (44_display.md R116 to R118): a draw is a walk over the cells of the sprite's set bits, no cell
comes twice, and so each cell is toggled exactly where a set bit falls on it. -/

namespace Sys2Proof.Machine

/-- The cells of a row's set bits, left to right; none for a bit that the edge leaves out. -/
def rowCells (edge : SpriteEdge) (x0 y0 r : Nat) (b : Byte) : List (Option (Fin 64 × Fin 32)) :=
  ((List.range 8).filter (fun c => b.getLsbD (7 - c))).map (spriteCell edge x0 y0 r)

/-- The cells of the set bits of the rows from `r` down. -/
def spriteCells (edge : SpriteEdge) (x0 y0 : Nat) : Nat → List Byte → List (Option (Fin 64 × Fin 32))
  | _, [] => []
  | r, b :: bs => rowCells edge x0 y0 r b ++ spriteCells edge x0 y0 (r + 1) bs

theorem drawRow_eq_foldl (edge : SpriteEdge) (x0 y0 r : Nat) (b : Byte) (k : Canvas) :
    drawRow edge x0 y0 r b k = (rowCells edge x0 y0 r b).foldl Canvas.xorCell k := by
  unfold drawRow rowCells
  generalize List.range 8 = cs
  induction cs generalizing k with
  | nil => rfl
  | cons c cs ih =>
    rw [List.foldl_cons, ih]
    by_cases h : b.getLsbD (7 - c) <;> simp [h]

/-- A draw walks over the sprite's cells. -/
theorem drawRows_eq_foldl (edge : SpriteEdge) (x0 y0 r : Nat) (bs : List Byte) (k : Canvas) :
    drawRows edge x0 y0 r bs k = (spriteCells edge x0 y0 r bs).foldl Canvas.xorCell k := by
  induction bs generalizing r k with
  | nil => rfl
  | cons b bs ih => rw [drawRows, spriteCells, List.foldl_append, ih, drawRow_eq_foldl]

/-! ## Which cells -/

/-- Sprite bit (r, c) falls on a cell exactly where the cell's column and row give back c and r (44_display.md R117). -/
theorem spriteCell_eq_some {edge : SpriteEdge} {x0 y0 r c : Nat} (hx : x0 < 64) (hy : y0 < 32) (hr : r < 32) (hc : c < 64)
    (cx : Fin 64) (cy : Fin 32) :
    spriteCell edge x0 y0 r c = some (cx, cy) ↔
      spriteIndex edge 64 x0 cx.val = some c ∧ spriteIndex edge 32 y0 cy.val = some r := by
  have h1 := cx.isLt
  have h2 := cy.isLt
  cases edge
  · simp only [spriteCell, spriteIndex]
    split
    · simp only [Option.some.injEq, Prod.mk.injEq, Fin.ext_iff]
      constructor
      · rintro ⟨a, b⟩
        rw [if_pos (by omega), if_pos (by omega)]
        exact ⟨congrArg some (by omega), congrArg some (by omega)⟩
      · rintro ⟨a, b⟩
        split at a <;> split at b <;> simp only [Option.some.injEq, reduceCtorEq] at a b
        omega
    · simp only [reduceCtorEq, false_iff]
      rintro ⟨a, b⟩
      split at a <;> split at b <;> simp only [Option.some.injEq, reduceCtorEq] at a b
      omega
  · simp only [spriteCell, spriteIndex, Option.some.injEq, Prod.mk.injEq, Fin.ext_iff]
    constructor <;> rintro ⟨a, b⟩ <;> constructor <;> omega

theorem mem_rowCells {edge : SpriteEdge} {x0 y0 r : Nat} {b : Byte} {q : Option (Fin 64 × Fin 32)} :
    q ∈ rowCells edge x0 y0 r b ↔ ∃ c, c < 8 ∧ b.getLsbD (7 - c) = true ∧ spriteCell edge x0 y0 r c = q := by
  simp only [rowCells, List.mem_map, List.mem_filter, List.mem_range, and_assoc]

theorem mem_spriteCells {edge : SpriteEdge} {x0 y0 : Nat} {bs : List Byte} {r : Nat} {q : Option (Fin 64 × Fin 32)} :
    q ∈ spriteCells edge x0 y0 r bs ↔
      ∃ (j : Nat) (h : j < bs.length) (c : Nat),
        c < 8 ∧ (bs[j]).getLsbD (7 - c) = true ∧ spriteCell edge x0 y0 (r + j) c = q := by
  induction bs generalizing r with
  | nil => simp [spriteCells]
  | cons b bs ih =>
    rw [spriteCells, List.mem_append, mem_rowCells, ih]
    constructor
    · rintro (⟨c, hc⟩ | ⟨j, hj, c, h1, h2, h3⟩)
      · exact ⟨0, by simp, c, hc⟩
      · exact ⟨j + 1, by simp only [List.length_cons]; omega, c, h1, by simpa using h2, by rw [← h3]; congr 1; omega⟩
    · rintro ⟨j, hj, c, h1, h2, h3⟩
      cases j with
      | zero => exact .inl ⟨c, h1, by simpa using h2, h3⟩
      | succ j =>
        refine .inr ⟨j, by simp only [List.length_cons] at hj; omega, c, h1, by simpa using h2, ?_⟩
        rw [← h3]; congr 1; omega

/-- No cell comes twice in a sprite of at most 15 rows (44_display.md R117). -/
theorem spriteCells_distinct {edge : SpriteEdge} {x0 y0 : Nat} (hx : x0 < 64) (hy : y0 < 32) (bs : List Byte) (r : Nat)
    (hr : r + bs.length ≤ 32) : (spriteCells edge x0 y0 r bs).Pairwise (fun p q => p = none ∨ p ≠ q) := by
  have back : ∀ {r c r' c' : Nat} {p : Option (Fin 64 × Fin 32)}, r < 32 → c < 64 → r' < 32 → c' < 64 → p ≠ none →
      spriteCell edge x0 y0 r c = p → spriteCell edge x0 y0 r' c' = p → r = r' ∧ c = c' := by
    intro r c r' c' p hr hc hr' hc' hp h1 h2
    obtain ⟨⟨cx, cy⟩, rfl⟩ := Option.ne_none_iff_exists'.1 hp
    have e1 := (spriteCell_eq_some hx hy hr hc cx cy).1 h1
    have e2 := (spriteCell_eq_some hx hy hr' hc' cx cy).1 h2
    exact ⟨Option.some.inj (e1.2.symm.trans e2.2), Option.some.inj (e1.1.symm.trans e2.1)⟩
  induction bs generalizing r with
  | nil => exact List.Pairwise.nil
  | cons b bs ih =>
    simp only [List.length_cons] at hr
    rw [spriteCells, List.pairwise_append]
    refine ⟨?_, ih (r + 1) (by omega), ?_⟩
    · rw [rowCells, List.pairwise_map]
      refine ((List.nodup_range (n := 8)).filter _).imp_of_mem ?_
      intro c c' hc hc' hne
      simp only [List.mem_filter, List.mem_range] at hc hc'
      by_cases hp : spriteCell edge x0 y0 r c = none
      · exact .inl hp
      · exact .inr fun he => hne (back (by omega) (by omega) (by omega) (by omega) hp rfl he.symm).2
    · intro p hp q hq
      obtain ⟨c, hc, -, e⟩ := mem_rowCells.1 hp
      obtain ⟨j, hj, c', hc', -, e'⟩ := mem_spriteCells.1 hq
      by_cases hn : p = none
      · exact .inl hn
      · refine .inr fun he => ?_
        have := (back (by omega) (by omega) (by omega) (by omega) hn e (e'.trans he.symm)).1
        omega

/-! ## What a walk over distinct cells leaves -/

/-- The cell is on, where the bit is not left out. -/
def Framebuffer.onAt (fb : Framebuffer) : Option (Fin 64 × Fin 32) → Bool
  | some (cx, cy) => fb.cell cx cy
  | none => false

theorem cell_foldl_xorCell (cells : List (Option (Fin 64 × Fin 32))) (k : Canvas)
    (hd : cells.Pairwise (fun p q => p = none ∨ p ≠ q)) (cx : Fin 64) (cy : Fin 32) :
    (cells.foldl Canvas.xorCell k).fb.cell cx cy = (k.fb.cell cx cy ^^ decide (some (cx, cy) ∈ cells)) := by
  induction cells generalizing k with
  | nil => simp
  | cons p cells ih =>
    rw [List.pairwise_cons] at hd
    rw [List.foldl_cons, ih _ hd.2]
    rcases p with _ | ⟨px, py⟩
    · simp [Canvas.xorCell]
    · simp only [Canvas.xorCell, cell_toggle, List.mem_cons, Option.some.injEq, Prod.mk.injEq]
      by_cases h : cx = px ∧ cy = py
      · obtain ⟨rfl, rfl⟩ := h
        have : some (cx, cy) ∉ cells := fun hm => by simpa using hd.1 _ hm
        simp [this]
      · simp [h]

theorem coll_foldl_xorCell (cells : List (Option (Fin 64 × Fin 32))) (k : Canvas)
    (hd : cells.Pairwise (fun p q => p = none ∨ p ≠ q)) :
    (cells.foldl Canvas.xorCell k).coll = (k.coll || cells.any k.fb.onAt) := by
  induction cells generalizing k with
  | nil => simp
  | cons p cells ih =>
    rw [List.pairwise_cons] at hd
    rw [List.foldl_cons, ih _ hd.2, List.any_cons]
    rcases p with _ | ⟨px, py⟩
    · simp [Canvas.xorCell, Framebuffer.onAt]
    · have hsame : cells.any (Canvas.xorCell k (some (px, py))).fb.onAt = cells.any k.fb.onAt := by
        rw [Bool.eq_iff_iff, List.any_eq_true, List.any_eq_true]
        refine exists_congr fun q => and_congr_right fun hq => ?_
        rcases q with _ | ⟨qx, qy⟩
        · simp [Framebuffer.onAt]
        · have hne := hd.1 _ hq
          simp only [Framebuffer.onAt, Canvas.xorCell, cell_toggle]
          rw [if_neg (by rintro ⟨rfl, rfl⟩; simp at hne)]
      rw [hsame]
      simp [Canvas.xorCell, Framebuffer.onAt, Bool.or_assoc]

/-! ## A draw from a state -/

theorem spriteBytes_length (s : State) (n : Nat) : (s.spriteBytes n).length = n := by
  simp [State.spriteBytes, State.indexAddrs, accessAddrs]

theorem spriteBytes_getElem (s : State) (n j : Nat) (h : j < (s.spriteBytes n).length) :
    (s.spriteBytes n)[j] = s.readByte (s.i.toNat + j) := by
  simp [State.spriteBytes, State.indexAddrs, accessAddrs]

/-- The walk's cells are those that the sprite covers. -/
theorem mem_cells_iff_covers (s : State) (x y : Reg) (n : Nat) (hn : n < 16) (cx : Fin 64) (cy : Fin 32) :
    some (cx, cy) ∈ spriteCells s.cfg.spriteEdge ((s.getV x).toNat % 64) ((s.getV y).toNat % 32) 0 (s.spriteBytes n) ↔
      s.covers x y n cx cy = true := by
  have hx : (s.getV x).toNat % 64 < 64 := Nat.mod_lt _ (by decide)
  have hy : (s.getV y).toNat % 32 < 32 := Nat.mod_lt _ (by decide)
  rw [mem_spriteCells]
  constructor
  · rintro ⟨j, hj, c, hc, hb, e⟩
    rw [spriteBytes_getElem] at hb
    rw [spriteBytes_length] at hj
    obtain ⟨e1, e2⟩ := (spriteCell_eq_some hx hy (by omega) (by omega) cx cy).1 e
    rw [Nat.zero_add] at e2
    simp [State.covers, e1, e2, hc, hj, hb]
  · intro h
    unfold State.covers at h
    split at h
    · rename_i c r e1 e2
      simp only [Bool.and_eq_true, decide_eq_true_eq] at h
      refine ⟨r, by rw [spriteBytes_length]; exact h.1.2, c, h.1.1, by rw [spriteBytes_getElem]; exact h.2, ?_⟩
      rw [Nat.zero_add]
      exact (spriteCell_eq_some hx hy (by omega) (by omega) cx cy).2 ⟨e1, e2⟩
    · simp at h

theorem drawn_distinct (s : State) (x y : Reg) (n : Nat) (hn : n < 16) :
    (spriteCells s.cfg.spriteEdge ((s.getV x).toNat % 64) ((s.getV y).toNat % 32) 0 (s.spriteBytes n)).Pairwise
      (fun p q => p = none ∨ p ≠ q) :=
  spriteCells_distinct (Nat.mod_lt _ (by decide)) (Nat.mod_lt _ (by decide)) _ _ (by rw [spriteBytes_length]; omega)

/-- A draw toggles exactly the cells that it covers. -/
theorem drawn_cell (s : State) (x y : Reg) (n : Nat) (hn : n < 16) (cx : Fin 64) (cy : Fin 32) :
    (s.drawn x y n).fb.cell cx cy = (s.fb.cell cx cy ^^ s.covers x y n cx cy) := by
  rw [State.drawn, drawRows_eq_foldl, cell_foldl_xorCell _ _ (drawn_distinct s x y n hn)]
  congr 1
  rw [Bool.eq_iff_iff, decide_eq_true_iff, mem_cells_iff_covers s x y n hn]

/-- A draw collides exactly where it covers a cell that was on. -/
theorem drawn_coll (s : State) (x y : Reg) (n : Nat) (hn : n < 16) :
    (s.drawn x y n).coll = true ↔ ∃ cx cy, s.covers x y n cx cy = true ∧ s.fb.cell cx cy = true := by
  rw [State.drawn, drawRows_eq_foldl, coll_foldl_xorCell _ _ (drawn_distinct s x y n hn), Bool.false_or, List.any_eq_true]
  constructor
  · rintro ⟨q, hq, hon⟩
    rcases q with _ | ⟨cx, cy⟩
    · simp [Framebuffer.onAt] at hon
    · exact ⟨cx, cy, (mem_cells_iff_covers s x y n hn cx cy).1 hq, hon⟩
  · rintro ⟨cx, cy, hc, hon⟩
    exact ⟨some (cx, cy), (mem_cells_iff_covers s x y n hn cx cy).2 hc, hon⟩

end Sys2Proof.Machine
end

