-- ==== Sys2Proof/Laws/Step.lean ====
section
/-! SUPPORT. What a step can do, said once: three cases, and the end of the step. -/

namespace Sys2Proof.Machine

theorem fetchable_iff (s : State) : s.fetchable = true ↔ s.pc.toNat ≤ 0xFFE := by simp [State.fetchable]

/-- The state an instruction executes in (30_encoding.md R69). -/
theorem fetched_eq (s : State) : s.fetched = { s with err := none, pc := s.pc + 2 } := rfl

/-- During the instruction, pc - 2 is the fetch address again (10_state.md R25). -/
theorem fetched_pc_sub (s : State) : s.fetched.pc - 2 = s.pc := by rw [fetched_pc]; bv_omega

/-- A step is one of three: a fetch error, an unrecognized word, or an instruction (30_encoding.md R67). -/
theorem step_cases (s : State) :
    (0xFFE < s.pc.toNat ∧ step s = .next (raiseFetch s).endStep) ∨
    (s.pc.toNat ≤ 0xFFE ∧ decodeWord s.fetchWord = none ∧
      step s = .next (raise .unrecognizedOpcode s.fetchWord.toNat s.fetched).endStep) ∨
    (s.pc.toNat ≤ 0xFFE ∧ ∃ i, decodeWord s.fetchWord = some i ∧ step s = retire (exec i s.fetched)) := by
  unfold step
  by_cases h : s.fetchable = true
  · rw [if_pos h]
    rw [fetchable_iff] at h
    cases hd : decodeWord s.fetchWord with
    | none => exact .inr (.inl ⟨h, rfl, rfl⟩)
    | some i => exact .inr (.inr ⟨h, i, rfl, rfl⟩)
  · rw [if_neg h]
    rw [fetchable_iff] at h
    exact .inl ⟨by omega, rfl⟩

/-- An instruction that answers a next state ends the step in it. -/
theorem retire_next {r : Result} {t : State} (h : r = .next t) : retire r = .next t.endStep := by rw [h]; rfl

theorem retire_eq_next {r : Result} {t : State} (h : retire r = .next t) : ∃ u, r = .next u ∧ t = u.endStep := by
  cases r with
  | next u => exact ⟨u, rfl, (Host.Outcome.next.inj h).symm⟩
  | fault f => cases h
  | refused q => cases h

end Sys2Proof.Machine
end

