-- ==== Sys2Proof/Laws/Exec.lean ====
section
/-! SUPPORT. What the meaning of an instruction can answer, said once over all instructions. -/

namespace Sys2Proof.Machine

/-- The check of a read from I, in closed form. -/
theorem raiseOr_read {s t : State} {n : Nat} : raiseOr (readError (s.indexAddrs n)) s t =
      match s.rangeError n with | some (k, d) => raise k d s | none => t := by
  rw [State.indexAddrs, readError_accessAddrs]; rfl

/-- The check of a write from I, in closed form. -/
theorem raiseOr_write {s t : State} {n : Nat} : raiseOr (writeError s.cfg.fontWrite (s.indexAddrs n)) s t =
      match s.storeError n with | some (k, d) => raise k d s | none => t := by
  rw [State.indexAddrs, writeError_accessAddrs]; rfl

/-! The four memory instructions with their checks in closed form. -/

theorem exec_drw_eq (x y : Reg) (n : Fin 16) (s : State) :
    exec (.drw x y n) s = .next (match s.rangeError n.val with
      | some (k, d) => raise k d s
      | none => { s with fb := (s.drawn x y n.val).fb, frameReady := true }.setV vf (flag (s.drawn x y n.val).coll)) :=
  congrArg _ raiseOr_read

theorem exec_ldVxMem_eq (x : Reg) (s : State) :
    exec (.ldVxMem x) s = .next (match s.rangeError (x.val + 1) with
      | some (k, d) => raise k d s
      | none => (regsUpTo x).foldl (fun t r => t.setV r (s.readByte (s.i.toNat + r.val))) s) :=
  congrArg _ raiseOr_read

theorem exec_ldBVx_eq (x : Reg) (s : State) :
    exec (.ldBVx x) s = .next (match s.storeError 3 with
      | some (k, d) => raise k d s
      | none => s.writeBytes s.i.toNat (bcdDigits (s.getV x))) :=
  congrArg _ raiseOr_write

theorem exec_ldMemVx_eq (x : Reg) (s : State) :
    exec (.ldMemVx x) s = .next (match s.storeError (x.val + 1) with
      | some (k, d) => raise k d s
      | none => s.writeBytes s.i.toNat ((regsUpTo x).map s.getV)) :=
  congrArg _ raiseOr_write

/-- What an instruction can do to the report: it raises the error that 60_exceptions.md R129 names for it in this state, or,
where there is none, it leaves the report, the model-only bit, the parameters and the keys as they were. It always answers a
next state. -/
theorem exec_cases (i : Instr) (s : State) : ∃ t, exec i s = .next t ∧
    ((∃ k d, i.error s = some (k, d) ∧ t = raise k d s) ∨
     (i.error s = none ∧ t.err = s.err ∧ t.faulted = s.faulted ∧ t.cfg = s.cfg ∧ t.key = s.key)) := by
  cases i
  case ret =>
    simp only [exec, execRet, Instr.error]
    split
    · rename_i h; rw [h]; exact ⟨_, rfl, .inl ⟨_, _, rfl, rfl⟩⟩
    · exact ⟨_, rfl, .inr ⟨rfl, rfl, rfl, rfl, rfl⟩⟩
  case call nnn =>
    simp only [exec, execCall, Instr.error]
    split
    · rename_i h; rw [h]; exact ⟨_, rfl, .inl ⟨_, _, rfl, rfl⟩⟩
    · exact ⟨_, rfl, .inr ⟨rfl, rfl, rfl, rfl, rfl⟩⟩
  case ldFVx x =>
    simp only [exec, execLdFVx, Instr.error, State.indexError]
    split
    · exact ⟨_, rfl, .inl ⟨_, _, rfl, rfl⟩⟩
    · exact ⟨_, rfl, .inr ⟨rfl, rfl, rfl, rfl, rfl⟩⟩
  case skp x =>
    refine ⟨_, rfl, ?_⟩
    simp only [skipOnKey, Instr.error, State.indexError]
    cases h : keyOf (s.getV x) with
    | none => rw [if_pos (keyOf_eq_none.1 h)]; exact .inl ⟨_, _, rfl, rfl⟩
    | some k =>
      have := keyOf_eq_some.1 h
      rw [if_neg (by omega)]; exact .inr (by simp)
  case sknp x =>
    refine ⟨_, rfl, ?_⟩
    simp only [skipOnKey, Instr.error, State.indexError]
    cases h : keyOf (s.getV x) with
    | none => rw [if_pos (keyOf_eq_none.1 h)]; exact .inl ⟨_, _, rfl, rfl⟩
    | some k =>
      have := keyOf_eq_some.1 h
      rw [if_neg (by omega)]; exact .inr (by simp)
  case drw x y n =>
    refine ⟨_, rfl, ?_⟩
    simp only [raiseOr_read, Instr.error]
    cases h : s.rangeError n.val with
    | none => exact .inr (by simp)
    | some e => exact .inl ⟨_, _, rfl, rfl⟩
  case ldVxMem x =>
    refine ⟨_, rfl, ?_⟩
    simp only [raiseOr_read, Instr.error]
    cases h : s.rangeError (x.val + 1) with
    | none => simp only; rw [foldl_setV_only_v]; exact .inr (by simp)
    | some e => exact .inl ⟨_, _, rfl, rfl⟩
  case ldBVx x =>
    refine ⟨_, rfl, ?_⟩
    simp only [raiseOr_write, Instr.error]
    cases h : s.storeError 3 with
    | none => simp only; rw [writeBytes_only_mem]; exact .inr (by simp)
    | some e => exact .inl ⟨_, _, rfl, rfl⟩
  case ldMemVx x =>
    refine ⟨_, rfl, ?_⟩
    simp only [raiseOr_write, Instr.error]
    cases h : s.storeError (x.val + 1) with
    | none => simp only; rw [writeBytes_only_mem]; exact .inr (by simp)
    | some e => exact .inl ⟨_, _, rfl, rfl⟩
  case ldVxK x =>
    simp only [exec, execLdVxK, Instr.error]
    split
    · exact ⟨_, rfl, .inr (by simp)⟩
    · exact ⟨_, rfl, .inr (by simp)⟩
  all_goals exact ⟨_, rfl, .inr (by simp [Instr.error])⟩
end Sys2Proof.Machine
end

