-- ==== Sys2Proof/Laws/PerInstr.lean ====
section
/-! SUPPORT. Families of statements about every instruction, one lemma per constructor. -/

namespace Sys2Proof.Laws.EncodeMatchesRow

/-- The instruction's word has the fixed bits of the instruction's row of 30_encoding.md R84. -/
def Statement (i : Instr) : Prop :=
  ∃ r ∈ opcodeTable, r.mnemonic = i.mnemonic ∧ r.accepts (encodeWord i) = true

/-! The fixed bits of each format, as a number: the group and the low `k` bits that the mask keeps. -/

theorem fixed_A (g : BitVec 4) (nnn : Addr12) :
    (formatA g nnn).toNat / 4096 * 4096 + (formatA g nnn).toNat % 2 ^ 0 = g.toNat * 4096 := by
  have := nnn.isLt
  rw [formatA_toNat]; omega

theorem fixed_XK (g : BitVec 4) (x : Reg) (kk : Byte) :
    (formatXK g x kk).toNat / 4096 * 4096 + (formatXK g x kk).toNat % 2 ^ 0 = g.toNat * 4096 := by
  have := kk.isLt
  rw [formatXK_toNat]; omega

theorem fixed_XS (g : BitVec 4) (x : Reg) (kk : Byte) :
    (formatXK g x kk).toNat / 4096 * 4096 + (formatXK g x kk).toNat % 2 ^ 8 = g.toNat * 4096 + kk.toNat := by
  have := kk.isLt
  rw [formatXK_toNat]; omega

theorem fixed_XY (g : BitVec 4) (x y : Reg) (n : BitVec 4) :
    (formatXYN g x y n).toNat / 4096 * 4096 + (formatXYN g x y n).toNat % 2 ^ 4 = g.toNat * 4096 + n.toNat := by
  have := n.isLt
  rw [formatXYN_toNat]; omega

theorem fixed_XYN (g : BitVec 4) (x y : Reg) (n : BitVec 4) :
    (formatXYN g x y n).toNat / 4096 * 4096 + (formatXYN g x y n).toNat % 2 ^ 0 = g.toNat * 4096 := by
  have := n.isLt
  rw [formatXYN_toNat]; omega

/-- How each lemma below shows it: the row, the low bits its mask fixes, and the word's fixed bits. -/
theorem of_row {i : Instr} (r : Row) (k : Nat) {p : Nat} (hr : r ∈ opcodeTable) (hn : r.mnemonic = i.mnemonic) (hk : k ≤ 12)
    (hm : r.mask = 0xF000#16 ||| BitVec.ofNat 16 (2 ^ k - 1))
    (hw : (encodeWord i).toNat / 4096 * 4096 + (encodeWord i).toNat % 2 ^ k = p) (hp : p = r.pattern.toNat) : Statement i :=
  ⟨r, hr, hn, (accepts_iff r k hk hm _).2 (hw.trans hp)⟩

theorem cls : Statement .cls :=
  of_row ⟨"CLS", 0xFFFF, 0x00E0⟩ 12 (by simp [opcodeTable, opcodeRowsLow]) rfl (by decide) (by decide) rfl rfl

theorem ret : Statement .ret :=
  of_row ⟨"RET", 0xFFFF, 0x00EE⟩ 12 (by simp [opcodeTable, opcodeRowsLow]) rfl (by decide) (by decide) rfl rfl

theorem jp (nnn : Addr12) : Statement (.jp nnn) :=
  of_row ⟨"JP", 0xF000, 0x1000⟩ 0 (by simp [opcodeTable, opcodeRowsLow]) rfl (by decide) (by decide) (fixed_A 0x1#4 nnn) rfl

theorem call (nnn : Addr12) : Statement (.call nnn) :=
  of_row ⟨"CALL", 0xF000, 0x2000⟩ 0 (by simp [opcodeTable, opcodeRowsLow]) rfl (by decide) (by decide) (fixed_A 0x2#4 nnn) rfl

theorem seVxKk (x : Reg) (kk : Byte) : Statement (.seVxKk x kk) :=
  of_row ⟨"SE_VX_KK", 0xF000, 0x3000⟩ 0 (by simp [opcodeTable, opcodeRowsLow]) rfl (by decide) (by decide) (fixed_XK 0x3#4 x kk) rfl

theorem sneVxKk (x : Reg) (kk : Byte) : Statement (.sneVxKk x kk) :=
  of_row ⟨"SNE_VX_KK", 0xF000, 0x4000⟩ 0 (by simp [opcodeTable, opcodeRowsLow]) rfl (by decide) (by decide) (fixed_XK 0x4#4 x kk) rfl

theorem seVxVy (x y : Reg) : Statement (.seVxVy x y) :=
  of_row ⟨"SE_VX_VY", 0xF00F, 0x5000⟩ 4 (by simp [opcodeTable, opcodeRowsLow]) rfl (by decide) (by decide) (fixed_XY 0x5#4 x y 0x0#4) rfl

theorem ldVxKk (x : Reg) (kk : Byte) : Statement (.ldVxKk x kk) :=
  of_row ⟨"LD_VX_KK", 0xF000, 0x6000⟩ 0 (by simp [opcodeTable, opcodeRowsLow]) rfl (by decide) (by decide) (fixed_XK 0x6#4 x kk) rfl

theorem addVxKk (x : Reg) (kk : Byte) : Statement (.addVxKk x kk) :=
  of_row ⟨"ADD_VX_KK", 0xF000, 0x7000⟩ 0 (by simp [opcodeTable, opcodeRowsLow]) rfl (by decide) (by decide) (fixed_XK 0x7#4 x kk) rfl

theorem ldVxVy (x y : Reg) : Statement (.ldVxVy x y) :=
  of_row ⟨"LD_VX_VY", 0xF00F, 0x8000⟩ 4 (by simp [opcodeTable, opcodeRowsLow]) rfl (by decide) (by decide) (fixed_XY 0x8#4 x y 0x0#4) rfl

theorem or (x y : Reg) : Statement (.or x y) :=
  of_row ⟨"OR", 0xF00F, 0x8001⟩ 4 (by simp [opcodeTable, opcodeRowsLow]) rfl (by decide) (by decide) (fixed_XY 0x8#4 x y 0x1#4) rfl

theorem and (x y : Reg) : Statement (.and x y) :=
  of_row ⟨"AND", 0xF00F, 0x8002⟩ 4 (by simp [opcodeTable, opcodeRowsLow]) rfl (by decide) (by decide) (fixed_XY 0x8#4 x y 0x2#4) rfl

theorem xor (x y : Reg) : Statement (.xor x y) :=
  of_row ⟨"XOR", 0xF00F, 0x8003⟩ 4 (by simp [opcodeTable, opcodeRowsLow]) rfl (by decide) (by decide) (fixed_XY 0x8#4 x y 0x3#4) rfl

theorem addVxVy (x y : Reg) : Statement (.addVxVy x y) :=
  of_row ⟨"ADD_VX_VY", 0xF00F, 0x8004⟩ 4 (by simp [opcodeTable, opcodeRowsLow]) rfl (by decide) (by decide) (fixed_XY 0x8#4 x y 0x4#4) rfl

theorem sub (x y : Reg) : Statement (.sub x y) :=
  of_row ⟨"SUB", 0xF00F, 0x8005⟩ 4 (by simp [opcodeTable, opcodeRowsLow]) rfl (by decide) (by decide) (fixed_XY 0x8#4 x y 0x5#4) rfl

theorem shr (x y : Reg) : Statement (.shr x y) :=
  of_row ⟨"SHR", 0xF00F, 0x8006⟩ 4 (by simp [opcodeTable, opcodeRowsLow]) rfl (by decide) (by decide) (fixed_XY 0x8#4 x y 0x6#4) rfl

theorem subn (x y : Reg) : Statement (.subn x y) :=
  of_row ⟨"SUBN", 0xF00F, 0x8007⟩ 4 (by simp [opcodeTable, opcodeRowsLow]) rfl (by decide) (by decide) (fixed_XY 0x8#4 x y 0x7#4) rfl

theorem shl (x y : Reg) : Statement (.shl x y) :=
  of_row ⟨"SHL", 0xF00F, 0x800E⟩ 4 (by simp [opcodeTable, opcodeRowsLow]) rfl (by decide) (by decide) (fixed_XY 0x8#4 x y 0xE#4) rfl

theorem sneVxVy (x y : Reg) : Statement (.sneVxVy x y) :=
  of_row ⟨"SNE_VX_VY", 0xF00F, 0x9000⟩ 4 (by simp [opcodeTable, opcodeRowsHigh]) rfl (by decide) (by decide) (fixed_XY 0x9#4 x y 0x0#4) rfl

theorem ldI (nnn : Addr12) : Statement (.ldI nnn) :=
  of_row ⟨"LD_I", 0xF000, 0xA000⟩ 0 (by simp [opcodeTable, opcodeRowsHigh]) rfl (by decide) (by decide) (fixed_A 0xA#4 nnn) rfl

theorem jpV0 (nnn : Addr12) : Statement (.jpV0 nnn) :=
  of_row ⟨"JP_V0", 0xF000, 0xB000⟩ 0 (by simp [opcodeTable, opcodeRowsHigh]) rfl (by decide) (by decide) (fixed_A 0xB#4 nnn) rfl

theorem rnd (x : Reg) (kk : Byte) : Statement (.rnd x kk) :=
  of_row ⟨"RND", 0xF000, 0xC000⟩ 0 (by simp [opcodeTable, opcodeRowsHigh]) rfl (by decide) (by decide) (fixed_XK 0xC#4 x kk) rfl

theorem drw (x y : Reg) (n : Fin 16) : Statement (.drw x y n) :=
  of_row ⟨"DRW", 0xF000, 0xD000⟩ 0 (by simp [opcodeTable, opcodeRowsHigh]) rfl (by decide) (by decide) (fixed_XYN 0xD#4 x y (nibble n)) rfl

theorem skp (x : Reg) : Statement (.skp x) :=
  of_row ⟨"SKP", 0xF0FF, 0xE09E⟩ 8 (by simp [opcodeTable, opcodeRowsHigh]) rfl (by decide) (by decide) (fixed_XS 0xE#4 x 0x9E#8) rfl

theorem sknp (x : Reg) : Statement (.sknp x) :=
  of_row ⟨"SKNP", 0xF0FF, 0xE0A1⟩ 8 (by simp [opcodeTable, opcodeRowsHigh]) rfl (by decide) (by decide) (fixed_XS 0xE#4 x 0xA1#8) rfl

theorem ldVxDt (x : Reg) : Statement (.ldVxDt x) :=
  of_row ⟨"LD_VX_DT", 0xF0FF, 0xF007⟩ 8 (by simp [opcodeTable, opcodeRowsHigh]) rfl (by decide) (by decide) (fixed_XS 0xF#4 x 0x07#8) rfl

theorem ldVxK (x : Reg) : Statement (.ldVxK x) :=
  of_row ⟨"LD_VX_K", 0xF0FF, 0xF00A⟩ 8 (by simp [opcodeTable, opcodeRowsHigh]) rfl (by decide) (by decide) (fixed_XS 0xF#4 x 0x0A#8) rfl

theorem ldDtVx (x : Reg) : Statement (.ldDtVx x) :=
  of_row ⟨"LD_DT_VX", 0xF0FF, 0xF015⟩ 8 (by simp [opcodeTable, opcodeRowsHigh]) rfl (by decide) (by decide) (fixed_XS 0xF#4 x 0x15#8) rfl

theorem ldStVx (x : Reg) : Statement (.ldStVx x) :=
  of_row ⟨"LD_ST_VX", 0xF0FF, 0xF018⟩ 8 (by simp [opcodeTable, opcodeRowsHigh]) rfl (by decide) (by decide) (fixed_XS 0xF#4 x 0x18#8) rfl

theorem addIVx (x : Reg) : Statement (.addIVx x) :=
  of_row ⟨"ADD_I_VX", 0xF0FF, 0xF01E⟩ 8 (by simp [opcodeTable, opcodeRowsHigh]) rfl (by decide) (by decide) (fixed_XS 0xF#4 x 0x1E#8) rfl

theorem ldFVx (x : Reg) : Statement (.ldFVx x) :=
  of_row ⟨"LD_F_VX", 0xF0FF, 0xF029⟩ 8 (by simp [opcodeTable, opcodeRowsHigh]) rfl (by decide) (by decide) (fixed_XS 0xF#4 x 0x29#8) rfl

theorem ldBVx (x : Reg) : Statement (.ldBVx x) :=
  of_row ⟨"LD_B_VX", 0xF0FF, 0xF033⟩ 8 (by simp [opcodeTable, opcodeRowsHigh]) rfl (by decide) (by decide) (fixed_XS 0xF#4 x 0x33#8) rfl

theorem ldMemVx (x : Reg) : Statement (.ldMemVx x) :=
  of_row ⟨"LD_MEM_VX", 0xF0FF, 0xF055⟩ 8 (by simp [opcodeTable, opcodeRowsHigh]) rfl (by decide) (by decide) (fixed_XS 0xF#4 x 0x55#8) rfl

theorem ldVxMem (x : Reg) : Statement (.ldVxMem x) :=
  of_row ⟨"LD_VX_MEM", 0xF0FF, 0xF065⟩ 8 (by simp [opcodeTable, opcodeRowsHigh]) rfl (by decide) (by decide) (fixed_XS 0xF#4 x 0x65#8) rfl

end Sys2Proof.Laws.EncodeMatchesRow
end

