-- ==== Sys2Proof/Machine/Asm.lean ====
section
/-! DEFINITION. The assembler syntax of an instruction (30_encoding.md R82), as text. PRESUMED by the spec itself ("from
general knowledge, not in source"); the source defines no assembler, and the spelling of numbers is the model's (log 15). -/

namespace Sys2Proof

/-- One hexadecimal digit. -/
def hexDigit (d : Nat) : String := String.singleton (Nat.digitChar d).toUpper

/-- `byte`, as two hexadecimal digits. -/
def Byte.asm (kk : Byte) : String := "0x" ++ hexDigit (kk.toNat / 16) ++ hexDigit (kk.toNat % 16)

/-- `addr`, as three hexadecimal digits. -/
def Addr12.asm (nnn : Addr12) : String :=
  "0x" ++ hexDigit (nnn.toNat / 256) ++ hexDigit (nnn.toNat / 16 % 16) ++ hexDigit (nnn.toNat % 16)

/-- `Vx`: V0..VF. -/
def Reg.asm (x : Reg) : String := "V" ++ hexDigit x.val

/-- An operation with two operands. -/
def asmTwo (op a b : String) : String := op ++ " " ++ a ++ ", " ++ b

/-- The listing text of an instruction (30_encoding.md R82). SHR and SHL with y = 0 take the one-operand form. -/
def Instr.asm : Instr → String
  | .cls => "CLS"
  | .ret => "RET"
  | .jp nnn => "JP " ++ Addr12.asm nnn
  | .call nnn => "CALL " ++ Addr12.asm nnn
  | .seVxKk x kk => asmTwo "SE" (Reg.asm x) (Byte.asm kk)
  | .sneVxKk x kk => asmTwo "SNE" (Reg.asm x) (Byte.asm kk)
  | .seVxVy x y => asmTwo "SE" (Reg.asm x) (Reg.asm y)
  | .ldVxKk x kk => asmTwo "LD" (Reg.asm x) (Byte.asm kk)
  | .addVxKk x kk => asmTwo "ADD" (Reg.asm x) (Byte.asm kk)
  | .ldVxVy x y => asmTwo "LD" (Reg.asm x) (Reg.asm y)
  | .or x y => asmTwo "OR" (Reg.asm x) (Reg.asm y)
  | .and x y => asmTwo "AND" (Reg.asm x) (Reg.asm y)
  | .xor x y => asmTwo "XOR" (Reg.asm x) (Reg.asm y)
  | .addVxVy x y => asmTwo "ADD" (Reg.asm x) (Reg.asm y)
  | .sub x y => asmTwo "SUB" (Reg.asm x) (Reg.asm y)
  | .shr x y => if y = 0 then "SHR " ++ Reg.asm x else asmTwo "SHR" (Reg.asm x) (Reg.asm y)
  | .subn x y => asmTwo "SUBN" (Reg.asm x) (Reg.asm y)
  | .shl x y => if y = 0 then "SHL " ++ Reg.asm x else asmTwo "SHL" (Reg.asm x) (Reg.asm y)
  | .sneVxVy x y => asmTwo "SNE" (Reg.asm x) (Reg.asm y)
  | .ldI nnn => asmTwo "LD" "I" (Addr12.asm nnn)
  | .jpV0 nnn => asmTwo "JP" "V0" (Addr12.asm nnn)
  | .rnd x kk => asmTwo "RND" (Reg.asm x) (Byte.asm kk)
  | .drw x y n => asmTwo "DRW" (Reg.asm x) (Reg.asm y) ++ ", " ++ "0x" ++ hexDigit n.val
  | .skp x => "SKP " ++ Reg.asm x
  | .sknp x => "SKNP " ++ Reg.asm x
  | .ldVxDt x => asmTwo "LD" (Reg.asm x) "DT"
  | .ldVxK x => asmTwo "LD" (Reg.asm x) "K"
  | .ldDtVx x => asmTwo "LD" "DT" (Reg.asm x)
  | .ldStVx x => asmTwo "LD" "ST" (Reg.asm x)
  | .addIVx x => asmTwo "ADD" "I" (Reg.asm x)
  | .ldFVx x => asmTwo "LD" "F" (Reg.asm x)
  | .ldBVx x => asmTwo "LD" "B" (Reg.asm x)
  | .ldMemVx x => asmTwo "LD" "[I]" (Reg.asm x)
  | .ldVxMem x => asmTwo "LD" (Reg.asm x) "[I]"

end Sys2Proof
end

