-- ==== Sys2Proof/Tests/Slice0.lean ====
section
/-! SUPPORT. The model's own tests. Expected results come from the spec: the encodings of 30_encoding.md R65 and R84, the
vectors of 95_test_vectors.md, and the rules named. Then one witness for each clause of a statement that has hypotheses. -/

namespace Sys2Proof.Tests

open Sys2Proof.Machine

/-! ## What is ill-formed is refused (WellFormed.lean) -/

theorem test_word_of_no_row : wordWellFormed 0x0123 = false := by decide

theorem test_word_with_a_nonzero_low_nibble : wordWellFormed 0x5121 = false ∧ wordWellFormed 0x9121 = false := by decide

theorem test_word_with_no_selector : wordWellFormed 0x8128 = false ∧ wordWellFormed 0xE0FF = false ∧ wordWellFormed 0xF0FF = false := by
  decide

theorem test_row_rejects : (Row.mk "SE_VX_VY" 0xF00F 0x5000).accepts 0x5121 = false := by decide

theorem test_table_is_unambiguous : opcodeTable.Pairwise (fun r q => r.disjoint q = true) := by decide

theorem test_overlapping_rows : (Row.mk "A" 0xF000 0x8000).disjoint (Row.mk "B" 0xF00F 0x8001) = false := by decide

theorem test_image_too_large : imageWellFormed (List.replicate 3585 0) = false := by
  simp only [imageWellFormed, List.length_replicate]; decide

/-! ## Decoding: every constructor, its word written out from 30_encoding.md R84 -/

theorem test_decode_control_flow :
    decode [0x00, 0xE0] = .ok (.cls, []) ∧ decode [0x00, 0xEE] = .ok (.ret, []) ∧
    decode [0x12, 0x34] = .ok (.jp 0x234, []) ∧ decode [0x2F, 0xFF] = .ok (.call 0xFFF, []) ∧
    decode [0x3A, 0x42] = .ok (.seVxKk 0xA 0x42, []) ∧ decode [0x4B, 0x81] = .ok (.sneVxKk 0xB 0x81, []) ∧
    decode [0x51, 0x20] = .ok (.seVxVy 1 2, []) ∧ decode [0x9E, 0xD0] = .ok (.sneVxVy 0xE 0xD, []) ∧
    decode [0xB3, 0x01] = .ok (.jpV0 0x301, []) := by decide

theorem test_decode_alu :
    decode [0x6A, 0xFF] = .ok (.ldVxKk 0xA 0xFF, []) ∧ decode [0x72, 0x80] = .ok (.addVxKk 2 0x80, []) ∧
    decode [0x81, 0x20] = .ok (.ldVxVy 1 2, []) ∧ decode [0x83, 0x41] = .ok (.or 3 4, []) ∧
    decode [0x85, 0x62] = .ok (.and 5 6, []) ∧ decode [0x87, 0x83] = .ok (.xor 7 8, []) := by decide

theorem test_decode_alu_flags :
    decode [0x89, 0xA4] = .ok (.addVxVy 9 0xA, []) ∧ decode [0x8B, 0xC5] = .ok (.sub 0xB 0xC, []) ∧
    decode [0x81, 0xA6] = .ok (.shr 1 0xA, []) ∧ decode [0x8D, 0xE7] = .ok (.subn 0xD 0xE, []) ∧
    decode [0x8F, 0x0E] = .ok (.shl 0xF 0, []) ∧ decode [0xC3, 0x0F] = .ok (.rnd 3 0x0F, []) := by decide

theorem test_decode_index_display :
    decode [0xA2, 0xF0] = .ok (.ldI 0x2F0, []) ∧ decode [0xF4, 0x1E] = .ok (.addIVx 4, []) ∧
    decode [0xF2, 0x29] = .ok (.ldFVx 2, []) ∧ decode [0xF5, 0x33] = .ok (.ldBVx 5, []) ∧
    decode [0xFE, 0x55] = .ok (.ldMemVx 0xE, []) ∧ decode [0xF1, 0x65] = .ok (.ldVxMem 1, []) ∧
    decode [0xDA, 0xBC] = .ok (.drw 0xA 0xB 0xC, []) := by decide

theorem test_decode_keypad_timers :
    decode [0xE1, 0x9E] = .ok (.skp 1, []) ∧ decode [0xEC, 0xA1] = .ok (.sknp 0xC, []) ∧
    decode [0xF3, 0x07] = .ok (.ldVxDt 3, []) ∧ decode [0xF2, 0x0A] = .ok (.ldVxK 2, []) ∧
    decode [0xF0, 0x15] = .ok (.ldDtVx 0, []) ∧ decode [0xFD, 0x18] = .ok (.ldStVx 0xD, []) := by decide

/-- 30_encoding.md R79; fewer than two bytes are no instruction (R63). -/
theorem test_decode_rejects_by_name :
    decode [0x00, 0x00] = .error (.unrecognizedOpcode 0x0000) ∧ decode [0xE1, 0x9F] = .error (.unrecognizedOpcode 0xE19F) ∧
    decode [0x8A, 0xBD] = .error (.unrecognizedOpcode 0x8ABD) ∧ decode [0x12] = .error .truncated := by decide

/-- The encoder, against the formats of 30_encoding.md R65. -/
theorem test_encode_formats :
    encodeWord (.call 0xABC) = 0x2ABC ∧ encodeWord (.rnd 0xD 0x17) = 0xCD17 ∧ encodeWord (.sub 0xE 9) = 0x8E95 ∧
    encodeWord (.drw 7 0xB 3) = 0xD7B3 ∧ encodeWord (.ldMemVx 6) = 0xF655 := by decide

/-- The listing text of 30_encoding.md R82 (95_test_vectors.md L3.1, L3.3). -/
theorem test_asm : (Instr.ldVxKk 0 0x9C).asm = "LD V0, 0x9C" ∧ (Instr.ldVxMem 2).asm = "LD V2, [I]" ∧
    (Instr.shr 0xA 0).asm = "SHR VA" ∧ (Instr.jp 0x20E).asm = "JP 0x20E" := by decide

/-! ## One step on a small state (95_test_vectors.md, L2) -/

/-- The next state of a step that runs the word. -/
def run1 (s : State) (w : Nat) : Option State := match step (s.withFetchWord 16 w) with | .next t => some t | _ => none

/-- The number of cells that are on. -/
def cellsOn (s : State) : Nat := (s.fb.toList.map (fun c => c.toList.count true)).sum

/-- The default machine with another setting of VF_OPERAND_READING, FONT_WRITE_POLICY or SPRITE_EDGE. -/
def sequential : Config := { defaultConfig with vfReading := .sequential }
def fontWritable : Config := { defaultConfig with fontWrite := .write }
def wrapping : Config := { defaultConfig with spriteEdge := .wrap }

theorem test_unrecognized_keeps_the_cycle : (run1 { State.reset with dt := 5, st := 1 } 0xFFFF).map
    (fun t => (t.err, t.pc, t.dt, t.st, t.faulted)) =
    some (some ⟨.unrecognizedOpcode, 0x200, some 0xFFFF, 0xFFFF⟩, 0x202, 4, 0, true) := by decide

theorem test_fetch_at_an_odd_pc : (run1 { State.reset with pc := 0x201 } 0x6042).map (fun t => (t.pc, t.getV 0, t.err)) =
    some (0x203, 0x42, none) := by decide

theorem test_fetch_out_of_range : (match step { State.reset with pc := 0x1000, dt := 2 } with
    | .next t => some (t.pc, t.err, t.dt)
    | _ => none) = some (0x1000, some ⟨.memoryOutOfRange, 0x1000, none, 0x1000⟩, 1) := by decide

theorem test_cls : (run1 { State.reset with fb := (State.reset.fb.toggle 0 0).toggle 63 31 } 0x00E0).map
    (fun t => (cellsOn t, t.frameReady)) = some (0, false) := by decide

theorem test_ret_pops : (run1 { State.reset with sp := 1, stack := Vector.replicate 16 0x234#16 } 0x00EE).map
    (fun t => (t.pc, t.sp)) = some (0x234, 0) := by decide

theorem test_ret_underflows : (run1 State.reset 0x00EE).map (fun t => (t.err, t.pc)) =
    some (some ⟨.stackUnderflow, 0x200, some 0x00EE, 0⟩, 0x202) := by decide

theorem test_jp_odd : (run1 State.reset 0x1235).map (fun t => t.pc) = some 0x235 := by decide

theorem test_call_fills_the_stack : (run1 { State.reset with sp := 15 } 0x2400).map (fun t => (t.pc, t.sp, t.stack[15])) =
    some (0x400, 16, 0x202) := by decide

theorem test_call_overflows : (run1 { State.reset with sp := 16 } 0x2400).map (fun t => (t.err, t.pc, t.sp)) =
    some (some ⟨.stackOverflow, 0x200, some 0x2400, 16⟩, 0x202, 16) := by decide

theorem test_se_taken : (run1 (State.reset.setV 0xA 0x42) 0x3A42).map (fun t => t.pc) = some 0x204 := by decide

theorem test_se_not_taken : (run1 (State.reset.setV 0xA 0x41) 0x3A42).map (fun t => t.pc) = some 0x202 := by decide

theorem test_sne_taken : (run1 (State.reset.setV 0xA 0x41) 0x4A42).map (fun t => t.pc) = some 0x204 := by decide

theorem test_sne_not_taken : (run1 (State.reset.setV 0xA 0x42) 0x4A42).map (fun t => t.pc) = some 0x202 := by decide

theorem test_se_registers : (run1 ((State.reset.setV 1 7).setV 2 7) 0x5120).map (fun t => t.pc) = some 0x204 := by decide

theorem test_sne_registers : (run1 ((State.reset.setV 1 7).setV 2 8) 0x9120).map (fun t => t.pc) = some 0x204 := by decide

theorem test_sne_registers_not_taken : (run1 ((State.reset.setV 1 7).setV 2 7) 0x9120).map (fun t => t.pc) = some 0x202 := by
  decide

theorem test_jp_v0_never_wraps : (run1 (State.reset.setV 0 0xFF) 0xBFFF).map (fun t => t.pc) = some 0x10FE := by decide

theorem test_ld_byte : (run1 State.reset 0x6AFF).map (fun t => (t.getV 0xA, t.pc)) = some (0xFF, 0x202) := by decide

theorem test_add_byte_wraps : (run1 ((State.reset.setV 2 2).setV 0xF 0x55) 0x72FF).map (fun t => (t.getV 2, t.getV 0xF)) =
    some (0x01, 0x55) := by decide

theorem test_ld_register : (run1 (State.reset.setV 2 0x99) 0x8120).map (fun t => (t.getV 1, t.getV 2)) =
    some (0x99, 0x99) := by decide

theorem test_or_keeps_vf : (run1 (((State.reset.setV 1 0x0F).setV 2 0xF0).setV 0xF 0x55) 0x8121).map
    (fun t => (t.getV 1, t.getV 0xF)) = some (0xFF, 0x55) := by decide

theorem test_and : (run1 ((State.reset.setV 1 0x3C).setV 2 0x0F) 0x8122).map (fun t => t.getV 1) = some 0x0C := by decide

theorem test_xor : (run1 ((State.reset.setV 1 0x3C).setV 2 0x0F) 0x8123).map (fun t => t.getV 1) = some 0x33 := by decide

theorem test_add_carry : (run1 ((State.reset.setV 1 0xFF).setV 2 1) 0x8124).map (fun t => (t.getV 1, t.getV 0xF)) =
    some (0, 1) := by decide

theorem test_add_into_vf : (run1 ((State.reset.setV 0xF 0xFF).setV 1 2) 0x8F14).map (fun t => t.getV 0xF) = some 1 := by decide

theorem test_sub_wraps : (run1 ((State.reset.setV 1 3).setV 2 5) 0x8125).map (fun t => (t.getV 1, t.getV 0xF)) =
    some (0xFE, 0) := by decide

theorem test_sub_vf_sequential : (run1 { (State.reset.setV 1 5).setV 0xF 3 with cfg := sequential } 0x81F5).map
    (fun t => (t.getV 1, t.getV 0xF)) = some (4, 1) := by decide

theorem test_shr_ignores_y : (run1 ((State.reset.setV 1 0x80).setV 0xA 0xFF) 0x81A6).map (fun t => (t.getV 1, t.getV 0xF)) =
    some (0x40, 0) := by decide

theorem test_shr_vf : (run1 (State.reset.setV 0xF 3) 0x8F06).map (fun t => t.getV 0xF) = some 1 := by decide

theorem test_subn_wraps : (run1 ((State.reset.setV 1 5).setV 2 3) 0x8127).map (fun t => (t.getV 1, t.getV 0xF)) =
    some (0xFE, 0) := by decide

theorem test_subn_equal : (run1 (((State.reset.setV 1 9).setV 2 9).setV 0xF 1) 0x8127).map (fun t => (t.getV 1, t.getV 0xF)) =
    some (0, 0) := by decide

theorem test_shl_bit7 : (run1 (State.reset.setV 1 0x81) 0x810E).map (fun t => (t.getV 1, t.getV 0xF)) = some (2, 1) := by decide

theorem test_shl_vf_sequential : (run1 { State.reset.setV 0xF 0xC1 with cfg := sequential } 0x8F0E).map (fun t => t.getV 0xF) =
    some 2 := by decide

theorem test_rnd_masks : (run1 { State.reset with rndIn := some 0xAB } 0xC30F).map (fun t => (t.getV 3, t.rndIn)) =
    some (0x0B, none) := by decide

theorem test_ld_i : (run1 State.reset 0xA123).map (fun t => t.i) = some 0x123 := by decide

theorem test_add_i_wraps : (run1 { (State.reset.setV 4 0x20).setV 0xF 7 with i := 0xFF0 } 0xF41E).map
    (fun t => (t.i, t.getV 0xF)) = some (0x010, 7) := by decide

theorem test_ld_f_digit : (run1 (State.reset.setV 2 0xF) 0xF229).map (fun t => t.i) = some 0x09B := by decide

theorem test_ld_f_error : (run1 { State.reset.setV 2 0x10 with i := 0x123 } 0xF229).map (fun t => (t.err, t.i)) =
    some (some ⟨.invalidRegisterIndex, 0x200, some 0xF229, 0x10⟩, 0x123) := by decide

theorem test_bcd : (run1 { State.reset.setV 5 156 with i := 0x300 } 0xF533).map
    (fun t => (t.readByte 0x300, t.readByte 0x301, t.readByte 0x302)) = some (1, 5, 6) := by decide

theorem test_bcd_into_the_font : (run1 { State.reset.setV 5 1 with i := 0x09E } 0xF533).map (fun t => (t.err, t.readByte 0x0A0)) =
    some (some ⟨.fontWriteViolation, 0x200, some 0xF533, 0x9E⟩, 0) := by decide

theorem test_dump : (run1 { ((State.reset.setV 0 1).setV 2 3).setV 3 9 with i := 0x400 } 0xF255).map
    (fun t => (t.readByte 0x400, t.readByte 0x402, t.readByte 0x403, t.i)) = some (1, 3, 0, 0x400) := by decide

theorem test_dump_out_of_range : (run1 { State.reset.setV 0 7 with i := 0xFF1 } 0xFF55).map (fun t => (t.err, t.readByte 0xFF1)) =
    some (some ⟨.memoryOutOfRange, 0x200, some 0xFF55, 0x1000⟩, 0) := by decide

theorem test_load_reads_the_font : (run1 { State.reset with i := 0x050 } 0xFF65).map
    (fun t => (t.getV 0, t.getV 5, t.getV 9, t.getV 0xD, t.getV 0xF)) = some (0xF0, 0x20, 0x70, 0x80, 0xF0) := by decide

theorem test_load_out_of_range : (run1 { State.reset.setV 0 0x11 with i := 0xFFF } 0xF165).map (fun t => (t.err, t.getV 0)) =
    some (some ⟨.memoryOutOfRange, 0x200, some 0xF165, 0x1000⟩, 0x11) := by decide

theorem test_drw_collision : (run1 { State.reset.writeByte 0x300 0x80 with i := 0x300, fb := State.reset.fb.toggle 0 0 }
    0xD011).map (fun t => (t.getV 0xF, t.fb.cell 0 0, t.frameReady, cellsOn t)) = some (1, false, true, 0) := by decide

theorem test_drw_wraps_right : (run1 { (State.reset.setV 0 62).writeByte 0x300 0xFF with i := 0x300, cfg := wrapping } 0xD011).map
    (fun t => (t.fb.cell 62 0, t.fb.cell 5 0, t.fb.cell 6 0, cellsOn t)) = some (true, true, false, 8) := by decide

theorem test_skp_pressed : (run1 ((State.reset.setV 1 5).setKey 5 true) 0xE19E).map (fun t => t.pc) = some 0x204 := by decide

theorem test_skp_error : (run1 ((State.reset.setV 1 16).setKey 0 true) 0xE19E).map (fun t => (t.err, t.pc)) =
    some (some ⟨.keyIndexOutOfRange, 0x200, some 0xE19E, 16⟩, 0x202) := by decide

theorem test_sknp_pressed : (run1 ((State.reset.setV 1 5).setKey 5 true) 0xE1A1).map (fun t => t.pc) = some 0x202 := by decide

theorem test_sknp_not_pressed : (run1 (State.reset.setV 1 5) 0xE1A1).map (fun t => t.pc) = some 0x204 := by decide

theorem test_get_dt_before_the_tick : (run1 { State.reset with dt := 0x3C } 0xF307).map (fun t => (t.getV 3, t.dt)) =
    some (0x3C, 59) := by decide

theorem test_wait_stalls : (run1 { State.reset with dt := 2 } 0xF20A).map (fun t => (t.pc, t.dt)) = some (0x200, 1) := by decide

theorem test_wait_takes_the_lowest : (run1 ((State.reset.setKey 9 true).setKey 3 true) 0xF20A).map (fun t => (t.getV 2, t.pc)) =
    some (3, 0x202) := by decide

theorem test_set_dt_ticks : (run1 (State.reset.setV 0 5) 0xF015).map (fun t => t.dt) = some 4 := by decide

theorem test_set_st_ticks : (run1 (State.reset.setV 0 1) 0xF018).map (fun t => (t.st, t.soundActive)) = some (0, false) := by decide

/-! ## Witnesses: for each clause of a statement that has hypotheses, a state and operands that meet them -/

/-- The outcome is a next state that has the property. -/
def nextHas (r : Result) (p : State → Bool) : Bool := match r with | .next t => p t | _ => false

/-- The state is there. -/
theorem exists_next {r : Result} {p : State → Prop} [DecidablePred p] (h : nextHas r (fun t => decide (p t)) = true) :
    ∃ t, r = .next t ∧ p t := by
  cases r with
  | next t => exact ⟨t, rfl, of_decide_eq_true h⟩
  | fault f => cases f
  | refused q => cases h

/-- The reset state with a word at pc. -/
def at200 (w : Nat) : State := State.reset.withFetchWord 16 w

/-- The reset state with a word in the last two bytes of memory, and pc there. -/
def atEnd (w : Nat) : State := { State.reset with pc := 0xFFE }.withFetchWord 16 w

/-- The reset state with this I and these values of V0 and V1. -/
def withI (i : Word) (v0 v1 : Byte) : State := { (State.reset.setV 0 v0).setV 1 v1 with i := i }

theorem witness_EncodeOfDecodeIsTheWord : decodeWord 0x81A6 = some (.shr 1 0xA) := by decide

theorem witness_StepFetches_fetch_error : 0xFFE < (0xFFF#16 : Word).toNat ∧ 0xFFE < (0xFFFF#16 : Word).toNat := by decide

theorem witness_StepFetches_unrecognized : (atEnd 0x0000).pc.toNat ≤ 0xFFE ∧
    decode [(atEnd 0x0000).readByte 0xFFE, (atEnd 0x0000).readByte 0xFFF] = .error (.unrecognizedOpcode 0x0000) := by decide

theorem witness_StepFetches_instruction : (atEnd 0x6042).pc.toNat ≤ 0xFFE ∧
    decode [(atEnd 0x6042).readByte 0xFFE, (atEnd 0x6042).readByte 0xFFF] = .ok (.ldVxKk 0 0x42, []) := by decide

theorem witness_StepFetches_exec : ∃ t, exec (.ldVxKk 0 0x42) { atEnd 0x6042 with err := none, pc := (atEnd 0x6042).pc + 2 } =
    .next t ∧ t.getV 0 = 0x42 := exists_next (by decide)

theorem witness_Timers_fx15 : ∃ t, step (atEnd 0xF015) = .next t ∧ (atEnd 0xF015).pc.toNat ≤ 0xFFE ∧
    decodeWord (atEnd 0xF015).fetchWord = some (.ldDtVx 0) := exists_next (by decide)

theorem witness_Timers_fx18 : ∃ t, step (atEnd 0xF018) = .next t ∧ (atEnd 0xF018).pc.toNat ≤ 0xFFE ∧
    decodeWord (atEnd 0xF018).fetchWord = some (.ldStVx 0) := exists_next (by decide)

theorem witness_Timers_other : ∃ t, step { at200 0x00E0 with dt := 1, st := 0xFF } = .next t ∧ t.dt = 0 ∧ t.st = 0xFE ∧
    decodeWord (at200 0x00E0).fetchWord = some .cls := exists_next (by decide)

theorem witness_PcAfter_skip : ∃ t, step (atEnd 0x3000) = .next t ∧ t.pc = 0x1002 := exists_next (by decide)

theorem witness_PcAfter_beyond_memory : ∃ t, step { State.reset with pc := 0xFFFF } = .next t ∧ t.pc = 0xFFFF :=
  exists_next (by decide)

theorem witness_ErrorStep_unrecognized : ∃ t, step (atEnd 0x0000) = .next t ∧ t.err ≠ none := exists_next (by decide)

theorem witness_ErrorStep_fetch : ∃ t, step { State.reset with pc := 0xFFF } = .next t ∧ t.err ≠ none := exists_next (by decide)

theorem witness_ErrorStep_instruction : ∃ t, step (at200 0x00EE) = .next t ∧
    t.err.map (fun e => e.kind) = some .stackUnderflow := exists_next (by decide)

/-- A state with every bound of the invariant met with equality. -/
def boundary : State :=
  { State.reset with i := 0xFFF, pc := 0x10FE, sp := 16, stack := Vector.replicate 16 0x1000#16, mem := [(0xFFF, 0x01)] }

theorem witness_Invariant : boundary.Inv :=
  ⟨by decide, by decide, by decide, fun j _ => by simp [boundary, Vector.get_eq_getElem]⟩

theorem witness_Invariant_step : ∃ t, step boundary = .next t ∧ t.pc = 0x10FE := exists_next (by decide)

theorem witness_OnlyDisplay_fb : ∃ t, step { at200 0xD011 with i := 0x050 } = .next t ∧ t.fb ≠ (at200 0xD011).fb :=
  exists_next (by decide)

theorem witness_OnlyDisplay_frameReady : ∃ t, step (at200 0xD010) = .next t ∧ t.frameReady ≠ (at200 0xD010).frameReady :=
  exists_next (by decide)

theorem witness_OnlyStores_memory : ∃ t, step { (at200 0xF055).setV 0 1 with i := 0xFFF } = .next t ∧
    t.readByte 0xFFF ≠ (at200 0xF055).readByte 0xFFF := exists_next (by decide)

theorem witness_OnlyStores_font : ∃ t, step { (at200 0xF055).setV 0 1 with i := 0x09F } = .next t ∧
    (at200 0xF055).cfg.fontWrite = .fault ∧ 0x050 ≤ 0x09F ∧ 0x09F ≤ 0x09F := exists_next (by decide)

theorem witness_RegistersWritten : ∃ t, step (at200 0xF165) = .next t ∧
    decodeWord (at200 0xF165).fetchWord = some (.ldVxMem 1) ∧ (Instr.ldVxMem 1).writesReg 2 = false := exists_next (by decide)

theorem witness_ControlState_i : ∃ t, step (at200 0xA123) = .next t ∧ t.i ≠ (at200 0xA123).i := exists_next (by decide)

theorem witness_ControlState_stack : ∃ t, step (at200 0x2400) = .next t ∧ t.sp ≠ (at200 0x2400).sp ∧
    t.stack ≠ (at200 0x2400).stack := exists_next (by decide)

theorem witness_RandomByte : ∀ x kk, decodeWord (at200 0xD015).fetchWord ≠ some (.rnd x kk) := by
  rw [show decodeWord (at200 0xD015).fetchWord = some (.drw 0 1 5) by decide]; simp

theorem witness_Keys : ∀ x, decodeWord (at200 0xF007).fetchWord ≠ some (.skp x) ∧
    decodeWord (at200 0xF007).fetchWord ≠ some (.sknp x) ∧ decodeWord (at200 0xF007).fetchWord ≠ some (.ldVxK x) := by
  rw [show decodeWord (at200 0xF007).fetchWord = some (.ldVxDt 0) by decide]; simp

theorem witness_Call : (State.reset.sp.val < 16) ∧ (15 : Fin 17).val < 16 ∧ (16 : Fin 17).val = 16 := by decide

theorem witness_Return : boundary.sp.val = (15 : Fin 16).val + 1 ∧ (1 : Fin 17).val = (0 : Fin 16).val + 1 ∧
    State.reset.sp.val = 0 := by decide

theorem witness_CallThenReturn : ({ State.reset with sp := 15 } : State).sp.val < 16 := by decide

theorem witness_Alu_latched : State.reset.cfg.vfReading = .latched ∧ (0 : Reg) ≠ 0xF ∧ (0xE : Reg) ≠ 0xF := by decide

theorem witness_Alu_sequential : ({ State.reset with cfg := sequential } : State).cfg.vfReading = .sequential ∧
    ((1 : Reg) ≠ 0xF ∧ (0xF : Reg) = 0xF) ∧ ((1 : Reg) = 0xF ↔ (2 : Reg) = 0xF) ∧ ((0xF : Reg) = 0xF ↔ (0xF : Reg) = 0xF) := by
  decide

theorem witness_Random_known : ({ State.reset with rndIn := some 0xFF } : State).rndIn = some 0xFF := by decide

theorem witness_Random_free : State.reset.rndIn = none := by decide

theorem witness_Font_digit : ((State.reset.setV 2 0xF).getV 2).toNat ≤ 15 ∧ 15 < ((State.reset.setV 2 0x10).getV 2).toNat := by
  decide

theorem witness_Bcd_last_bytes : (withI 0xFFD 0xFF 0).StoreAllowed 3 := by unfold State.StoreAllowed; decide

theorem witness_Bcd_below_the_font : (withI 0x04D 0xFF 0).StoreAllowed 3 := by unfold State.StoreAllowed; decide

theorem witness_Bcd_above_the_font : (withI 0x0A0 0xFF 0).StoreAllowed 3 := by unfold State.StoreAllowed; decide

theorem witness_Bcd_into_a_writable_font : ({ withI 0x050 0xFF 0 with cfg := fontWritable } : State).StoreAllowed 3 := by
  unfold State.StoreAllowed; decide

theorem witness_Dump_last_byte : (withI 0xFFF 1 2).StoreAllowed ((0 : Reg).val + 1) := by unfold State.StoreAllowed; decide

theorem witness_Dump_sixteen : (withI 0xFF0 1 2).StoreAllowed ((0xF : Reg).val + 1) := by unfold State.StoreAllowed; decide

theorem witness_StoresFail_forms :
    ((Instr.ldBVx 5 = .ldBVx 5 ∧ 3 = 3) ∨ (Instr.ldBVx 5 = .ldMemVx 5 ∧ 3 = (5 : Reg).val + 1)) ∧
    ((Instr.ldMemVx 0xF = .ldBVx 0xF ∧ 16 = 3) ∨ (Instr.ldMemVx 0xF = .ldMemVx 0xF ∧ 16 = (0xF : Reg).val + 1)) := by decide

theorem witness_StoresFail_range : 0x1000 < (withI 0xFFE 1 2).i.toNat + 3 ∧
    0x1000 < (withI 0xFF1 1 2).i.toNat + ((0xF : Reg).val + 1) := by decide

theorem witness_StoresFail_font : (withI 0x04E 1 2).i.toNat + 3 ≤ 0x1000 ∧ (withI 0x04E 1 2).cfg.fontWrite = .fault ∧
    0x050 < (withI 0x04E 1 2).i.toNat + 3 ∧ (withI 0x04E 1 2).i.toNat < 0x0A0 := by decide

theorem witness_StoresFail_font_end : (withI 0x09F 1 2).i.toNat + ((0 : Reg).val + 1) ≤ 0x1000 ∧
    (withI 0x09F 1 2).cfg.fontWrite = .fault ∧ 0x050 < (withI 0x09F 1 2).i.toNat + ((0 : Reg).val + 1) ∧
    (withI 0x09F 1 2).i.toNat < 0x0A0 := by decide

theorem witness_Load_registers : (withI 0xFFF 1 2).i.toNat + (0 : Reg).val ≤ 0xFFF ∧
    0xFFF < (withI 0xFFF 1 2).i.toNat + (1 : Reg).val := by decide

theorem witness_DumpedWord : (withI 0x200 0x12 0x34).StoreAllowed ((1 : Reg).val + 1) ∧ (1 : Reg).val = (0 : Reg).val + 1 ∧
    (1 : Reg) ≤ 1 ∧ (withI 0x200 0x12 0x34).pc.toNat = (withI 0x200 0x12 0x34).i.toNat + (0 : Reg).val := by
  unfold State.StoreAllowed; decide

theorem witness_Canonical : Memory.wf defaultFont [(0x050, 0x00), (0x200, 0xA2), (0xFFF, 0x01)] := by decide

theorem witness_Draw_in_memory : (0 : Fin 16).val = 0 ∧ (withI 0xFF1 0 0).i.toNat + (0xF : Fin 16).val ≤ 0x1000 := by decide

theorem witness_Draw_collision : ({ withI 0x050 0 0 with fb := State.reset.fb.toggle 0 0 } : State).covers 0 1 5 0 0 = true ∧
    ({ withI 0x050 0 0 with fb := State.reset.fb.toggle 0 0 } : State).fb.cell 0 0 = true := by decide

theorem witness_Draw_no_collision : ∀ cx cy, (withI 0x050 0 0).covers 0 1 5 cx cy = true →
    (withI 0x050 0 0).fb.cell cx cy = false := by
  intro cx cy _; simp [withI, State.reset, State.setV, Framebuffer.cell, Vector.get_eq_getElem]

theorem witness_Draw_out_of_range : (0xF : Fin 16).val ≠ 0 ∧ 0x1000 < (withI 0xFF2 0 0).i.toNat + (0xF : Fin 16).val := by decide

/-- The later state of `DrawingTwiceRestoresTheScreen`: the state after the first draw, with other coordinate registers of the
same base position. -/
theorem witness_DrawTwice : ∃ t, exec (.drw 0 1 1) (withI 0x050 62 31) = .next t ∧
    (t.setV 0 126).fb = t.fb ∧ (t.setV 0 126).i = (withI 0x050 62 31).i ∧ (t.setV 0 126).cfg = (withI 0x050 62 31).cfg ∧
    (∀ k, k < 1 → (t.setV 0 126).readByte (0x050 + k) = (withI 0x050 62 31).readByte (0x050 + k)) ∧
    ((t.setV 0 126).getV 0).toNat % 64 = ((withI 0x050 62 31).getV 0).toNat % 64 ∧
    ((t.setV 0 126).getV 1).toNat % 32 = ((withI 0x050 62 31).getV 1).toNat % 32 := exists_next (by decide)

theorem witness_KeySkips : ((State.reset.setV 1 0xF).getV 1).toNat = (0xF : Key).val ∧
    15 < ((State.reset.setV 1 0x10).getV 1).toNat := by decide

theorem witness_WaitForKey_pressed : (State.reset.setKey 0xF true).key.get 0xF = true ∧
    ∀ j, j < (0xF : Key) → (State.reset.setKey 0xF true).key.get j = false := by decide

theorem witness_WaitForKey_none : ∀ k, State.reset.key.get k = false := by decide

theorem witness_LoadImage : (List.replicate 3584 (0xFF : Byte)).length ≤ 3584 ∧ 3584 < (List.replicate 3585 (0xFF : Byte)).length := by
  simp only [List.length_replicate]; decide

theorem witness_Ended : (atEnd 0x1FFE).Ended := ⟨by decide, 0xFFE, by decide, by decide⟩

end Sys2Proof.Tests
end

namespace Sys2Proof

open Machine

/-! SUPPORT. The state an instruction leaves where it raises no error: the meanings of Machine/ with their checks taken
off. `exec_eq_raiseOr` ties it to `exec`, so that what a step writes is read off one table and the errors are handled
once. -/

/-- What the instruction leaves in a state where `Instr.error` names no error (10_state.md R37). -/
def Instr.effect (i : Instr) (s : State) : State :=
  match i with
  | .cls => { s with fb := Framebuffer.clear }
  | .ret => { s with sp := s.sp - 1, pc := s.stack.get (Fin.ofNat 16 (s.sp.val - 1)) }
  | .jp nnn => { s with pc := zext16 nnn }
  | .call nnn => { s with stack := s.stack.setIfInBounds s.sp.val s.pc, sp := s.sp + 1, pc := zext16 nnn }
  | .seVxKk x kk => s.skipIf (s.getV x == kk)
  | .sneVxKk x kk => s.skipIf (s.getV x != kk)
  | .seVxVy x y => s.skipIf (s.getV x == s.getV y)
  | .ldVxKk x kk => s.setV x kk
  | .addVxKk x kk => s.setV x (s.getV x + kk)
  | .ldVxVy x y => s.setV x (s.getV y)
  | .or x y => s.setV x (s.getV x ||| s.getV y)
  | .and x y => s.setV x (s.getV x &&& s.getV y)
  | .xor x y => s.setV x (s.getV x ^^^ s.getV y)
  | .addVxVy x y => resultThenFlag x (s.getV x + s.getV y) (carry (s.getV x) (s.getV y)) s
  | .sub x y => flagThenResult x y above (fun a b => a - b) s
  | .shr x _ => flagThenResult x x (fun a _ => lowBit a) (fun a _ => a >>> 1) s
  | .subn x y => flagThenResult x y (fun a b => above b a) (fun a b => b - a) s
  | .shl x _ => flagThenResult x x (fun a _ => highBit a) (fun a _ => a <<< 1) s
  | .sneVxVy x y => s.skipIf (s.getV x != s.getV y)
  | .ldI nnn => { s with i := zext16 nnn }
  | .jpV0 nnn => { s with pc := offsetTarget nnn (s.getV 0) }
  | .rnd x kk => s.takeRnd.setV x (s.rndByte &&& kk)
  | .drw x y n => { s with fb := (s.drawn x y n.val).fb, frameReady := true }.setV vf (flag (s.drawn x y n.val).coll)
  | .skp x => s.skipIf (s.key.get (Fin.ofNat 16 (s.getV x).toNat) == true)
  | .sknp x => s.skipIf (s.key.get (Fin.ofNat 16 (s.getV x).toNat) == false)
  | .ldVxDt x => s.setV x s.dt
  | .ldVxK x => (lowestPressed s.key).elim { s with pc := s.pc - 2 } fun k => s.setV x (BitVec.ofNat 8 k.val)
  | .ldDtVx x => { s with dt := s.getV x }
  | .ldStVx x => { s with st := s.getV x }
  | .addIVx x => { s with i := indexSum s.i (s.getV x) }
  | .ldFVx x => { s with i := glyphAddr (s.getV x).toNat }
  | .ldBVx x => s.writeBytes s.i.toNat (bcdDigits (s.getV x))
  | .ldMemVx x => s.writeBytes s.i.toNat ((regsUpTo x).map s.getV)
  | .ldVxMem x => (regsUpTo x).foldl (fun t r => t.setV r (s.readByte (s.i.toNat + r.val))) s

end Sys2Proof

namespace Sys2Proof.Machine

/-! ## Every meaning as its check and its effect -/

theorem fin16_ofNat_eq {n : Nat} {k : Fin 16} (h : n = k.val) : Fin.ofNat 16 n = k := by
  subst h; exact Fin.ofNat_val_eq_self k

/-- A push inside the stack is the bounded write. -/
theorem setIfInBounds_eq_set {stack : Vector Word 16} {j : Nat} {w : Word} (h : j < 16) :
    stack.setIfInBounds j w = stack.set j w h :=
  Vector.ext fun k hk => by rw [Vector.getElem_setIfInBounds, Vector.getElem_set]

/-- The two skips on a key, in the form of the errors of 60_exceptions.md R129. -/
theorem skipOnKey_eq_raiseOr (x : Reg) (pressed : Bool) (s : State) :
    skipOnKey x pressed s = raiseOr (s.indexError x .keyIndexOutOfRange) s
      (s.skipIf (s.key.get (Fin.ofNat 16 (s.getV x).toNat) == pressed)) := by
  unfold skipOnKey State.indexError
  cases hk : keyOf (s.getV x) with
  | none => rw [if_pos (keyOf_eq_none.1 hk)]; rfl
  | some k =>
    have hv := keyOf_eq_some.1 hk
    rw [if_neg (by omega), fin16_ofNat_eq hv]; rfl

/-- Every instruction raises the error that 60_exceptions.md R129 names for it, and where there is none leaves its
effect. -/
theorem exec_eq_raiseOr (i : Instr) (s : State) : exec i s = .next (raiseOr (i.error s) s (i.effect s)) := by
  cases i
  case ret =>
    simp only [exec, execRet, Instr.error, Instr.effect]
    split
    · rename_i h; rw [h]; rfl
    · rename_i h
      have e : Fin.ofNat 16 (s.sp.val - 1) = ⟨s.sp.val - 1, by omega⟩ := fin16_ofNat_eq rfl
      rw [e]; rfl
  case call nnn =>
    simp only [exec, execCall, Instr.error, Instr.effect]
    split
    · rename_i h; rw [h]; rfl
    · rw [setIfInBounds_eq_set (by omega)]; rfl
  case ldFVx x =>
    simp only [exec, execLdFVx, Instr.error, Instr.effect, State.indexError]
    split <;> rfl
  case skp x => exact congrArg Host.Outcome.next (skipOnKey_eq_raiseOr x true s)
  case sknp x => exact congrArg Host.Outcome.next (skipOnKey_eq_raiseOr x false s)
  case ldVxK x =>
    simp only [exec, execLdVxK, Instr.error, Instr.effect]
    cases lowestPressed s.key <;> rfl
  case drw x y n => exact exec_drw_eq x y n s
  case ldVxMem x => exact exec_ldVxMem_eq x s
  case ldBVx x => exact exec_ldBVx_eq x s
  case ldMemVx x => exact exec_ldMemVx_eq x s
  all_goals rfl

/-- The errors of 60_exceptions.md R129 do not depend on pc or on the last report. -/
theorem error_fetched (i : Instr) (s : State) : i.error s.fetched = i.error s := by cases i <;> rfl

/-- Where no error comes before it, an instruction's own error is the step's (60_exceptions.md R133). -/
theorem stepError_of_decode {s : State} {i : Instr} (hpc : s.pc.toNat ≤ 0xFFE) (hd : decodeWord s.fetchWord = some i) :
    s.stepError = i.error s := by
  unfold State.stepError; rw [if_neg (by omega), hd]

theorem stepError_of_unrecognized {s : State} (hpc : s.pc.toNat ≤ 0xFFE) (hd : decodeWord s.fetchWord = none) :
    s.stepError = some (.unrecognizedOpcode, s.fetchWord.toNat) := by
  unfold State.stepError; rw [if_neg (by omega), hd]

/-! ## The step, one equation per branch of 30_encoding.md R67 -/

section branches
variable {s : State}

theorem step_of_unfetchable (hpc : 0xFFE < s.pc.toNat) : step s = .next (raiseFetch s).endStep := by
  unfold step
  rw [if_neg (by rw [fetchable_iff]; omega)]; rfl

theorem step_of_unrecognized (hpc : s.pc.toNat ≤ 0xFFE) (hd : decodeWord s.fetchWord = none) :
    step s = .next (raise .unrecognizedOpcode s.fetchWord.toNat s.fetched).endStep := by
  unfold step
  rw [if_pos ((fetchable_iff s).2 hpc), hd]; rfl

theorem step_of_decode {i : Instr} (hpc : s.pc.toNat ≤ 0xFFE) (hd : decodeWord s.fetchWord = some i) :
    step s = .next (raiseOr (i.error s) s.fetched (i.effect s.fetched)).endStep := by
  unfold step
  rw [if_pos ((fetchable_iff s).2 hpc), hd, ← error_fetched]
  exact retire_next (exec_eq_raiseOr i s.fetched)

end branches

/-- What a step can do, said once (30_encoding.md R67, 60_exceptions.md R130): the fetch fails; or an error is reported,
with nothing else written; or an instruction that raises no error leaves its effect. The timers tick in each case. -/
theorem step_outcome {s t : State} (h : step s = .next t) :
    (0xFFE < s.pc.toNat ∧ t = (raiseFetch s).endStep) ∨
    (s.pc.toNat ≤ 0xFFE ∧ s.stepError ≠ none ∧ ∃ k d, t = (raise k d s.fetched).endStep) ∨
    (s.pc.toNat ≤ 0xFFE ∧ ∃ i, decodeWord s.fetchWord = some i ∧ i.error s = none ∧
      t = (i.effect s.fetched).endStep) := by
  by_cases hpc : s.pc.toNat ≤ 0xFFE
  · cases hd : decodeWord s.fetchWord with
    | none =>
      have hse := stepError_of_unrecognized hpc hd
      exact .inr (.inl ⟨hpc, by simp [hse], _, _, Host.Outcome.next.inj (h.symm.trans (step_of_unrecognized hpc hd))⟩)
    | some i =>
      obtain rfl := Host.Outcome.next.inj (h.symm.trans (step_of_decode hpc hd))
      rcases raiseOr_cases (i.error s) s.fetched (i.effect s.fetched) with ⟨k, d, he, hr⟩ | ⟨he, hr⟩ <;> rw [hr]
      · exact .inr (.inl ⟨hpc, by simp [stepError_of_decode hpc hd, he], k, d, rfl⟩)
      · exact .inr (.inr ⟨hpc, i, rfl, he, rfl⟩)
  · have hlt := Nat.lt_of_not_le hpc
    exact .inl ⟨hlt, Host.Outcome.next.inj (h.symm.trans (step_of_unfetchable hlt))⟩

/-! ## The fields that stores and register loads leave -/

section writeBytes
variable (s : State) (base : Nat) (bs : List Byte)
@[simp] theorem writeBytes_v : (s.writeBytes base bs).v = s.v := by rw [writeBytes_only_mem]
@[simp] theorem writeBytes_i : (s.writeBytes base bs).i = s.i := by rw [writeBytes_only_mem]
@[simp] theorem writeBytes_pc : (s.writeBytes base bs).pc = s.pc := by rw [writeBytes_only_mem]
@[simp] theorem writeBytes_sp : (s.writeBytes base bs).sp = s.sp := by rw [writeBytes_only_mem]
@[simp] theorem writeBytes_stack : (s.writeBytes base bs).stack = s.stack := by rw [writeBytes_only_mem]
end writeBytes

section foldlSetV
variable (f : Reg → Byte) (rs : List Reg) (s : State)
@[simp] theorem foldl_setV_i : (rs.foldl (fun t q => t.setV q (f q)) s).i = s.i := by rw [foldl_setV_only_v]
@[simp] theorem foldl_setV_pc : (rs.foldl (fun t q => t.setV q (f q)) s).pc = s.pc := by rw [foldl_setV_only_v]
@[simp] theorem foldl_setV_sp : (rs.foldl (fun t q => t.setV q (f q)) s).sp = s.sp := by rw [foldl_setV_only_v]
@[simp] theorem foldl_setV_stack : (rs.foldl (fun t q => t.setV q (f q)) s).stack = s.stack := by
  rw [foldl_setV_only_v]
@[simp] theorem foldl_setV_mem : (rs.foldl (fun t q => t.setV q (f q)) s).mem = s.mem := by rw [foldl_setV_only_v]
end foldlSetV

/-! ## The fields an effect leaves, by the table of 10_state.md R37 -/

section frames
variable (i : Instr) (s : State)

/-- I is written by Annn, Fx1E and Fx29 alone. -/
theorem effect_i : (i.effect s).i = s.i ∨ (∃ nnn, i = .ldI nnn) ∨ ∃ x, i = .addIVx x ∨ i = .ldFVx x := by
  cases i
  case ldI nnn => exact .inr (.inl ⟨nnn, rfl⟩)
  case addIVx x => exact .inr (.inr ⟨x, .inl rfl⟩)
  case ldFVx x => exact .inr (.inr ⟨x, .inr rfl⟩)
  case ldVxK x => cases h : lowestPressed s.key <;> simp [Instr.effect, h]
  all_goals exact .inl (by simp [Instr.effect])

/-- SP and the stack are written by 00EE and 2nnn alone. -/
theorem effect_stack : ((i.effect s).sp = s.sp ∧ (i.effect s).stack = s.stack) ∨ i = .ret ∨ ∃ nnn, i = .call nnn := by
  cases i
  case ret => exact .inr (.inl rfl)
  case call nnn => exact .inr (.inr ⟨nnn, rfl⟩)
  case ldVxK x => cases h : lowestPressed s.key <;> simp [Instr.effect, h]
  all_goals exact .inl (by simp [Instr.effect])

/-- Memory is written by Fx33 and Fx55 alone. -/
theorem effect_mem : (i.effect s).mem = s.mem ∨ ∃ x, i = .ldBVx x ∨ i = .ldMemVx x := by
  cases i
  case ldBVx x => exact .inr ⟨x, .inl rfl⟩
  case ldMemVx x => exact .inr ⟨x, .inr rfl⟩
  case ldVxK x => cases h : lowestPressed s.key <;> simp [Instr.effect, h]
  all_goals exact .inl (by simp [Instr.effect])

variable {i s}

/-- The parameters and the keys are written by no instruction. -/
theorem effect_cfg_key (he : i.error s = none) : (i.effect s).cfg = s.cfg ∧ (i.effect s).key = s.key := by
  obtain ⟨t, ht, ⟨k, d, hk, -⟩ | ⟨-, -, -, hcfg, hkey⟩⟩ := exec_cases i s
  · rw [he] at hk; cases hk
  · rw [exec_eq_raiseOr, he] at ht
    obtain rfl := Host.Outcome.next.inj ht
    exact ⟨hcfg, hkey⟩

/-- The general registers are written by the instructions of the table of 10_state.md R22 alone. -/
theorem getV_effect {r : Reg} (hr : i.writesReg r = false) : (i.effect s).getV r = s.getV r := by
  cases i
  case ldVxKk | addVxKk | ldVxVy | or | and | xor | rnd | ldVxDt | drw =>
    exact getV_setV_ne _ _ (by simpa [Instr.writesReg] using hr)
  case addVxVy x y =>
    obtain ⟨hx, hf⟩ : r ≠ x ∧ r ≠ vf := by simpa [Instr.writesReg] using hr
    rw [Instr.effect, getV_resultThenFlag, if_neg hf, if_neg hx]
  case sub x y | shr x y | subn x y | shl x y =>
    obtain ⟨hx, hf⟩ : r ≠ x ∧ r ≠ vf := by simpa [Instr.writesReg] using hr
    rw [Instr.effect, getV_flagThenResult, if_neg hx, if_neg hf]
  case ldVxK x =>
    have hx : r ≠ x := by simpa [Instr.writesReg] using hr
    unfold Instr.effect
    cases lowestPressed s.key with
    | none => rfl
    | some k => exact getV_setV_ne _ _ hx
  case ldVxMem x =>
    have hx : r ∉ regsUpTo x := by simpa [Instr.writesReg, mem_regsUpTo] using hr
    exact (getV_foldl_setV ..).trans (if_neg hx)
  all_goals exact getV_congr (by simp [Instr.effect]) r

end frames

/-! ## pc (10_state.md R26, R28) -/

/-- A skip after the advance is the skip of R26. -/
theorem fetched_skipIf_pc (s : State) (c : Bool) : (s.fetched.skipIf c).pc = s.skipTarget c := by
  rw [skipIf_pc, fetched_pc, State.skipTarget]
  cases c
  · rfl
  · simp only [if_true]; bv_omega

theorem exists_pressed_iff {key : Vector Bool 16} : (∃ k, key.get k = true) ↔ lowestPressed key ≠ none := by
  rw [ne_eq, lowestPressed_eq_none]; simp

/-- pc after an instruction that raises no error is the entry of the table of R26. -/
theorem effect_fetched_pc (i : Instr) (s : State) : (i.effect s.fetched).pc = s.pcAfterInstr i := by
  cases i
  case jp nnn | call nnn => exact (BitVec.ofNat_toNat 16 nnn).symm
  case jpV0 nnn =>
    rw [State.pcAfterInstr, BitVec.ofNat_add, BitVec.ofNat_toNat, BitVec.ofNat_toNat]
    rfl
  case seVxKk x kk => exact fetched_skipIf_pc ..
  case seVxVy x y => exact fetched_skipIf_pc ..
  case sneVxKk x kk => exact (fetched_skipIf_pc ..).trans (congrArg s.skipTarget decide_not.symm)
  case sneVxVy x y => exact (fetched_skipIf_pc ..).trans (congrArg s.skipTarget decide_not.symm)
  case skp x => exact (fetched_skipIf_pc ..).trans (congrArg s.skipTarget (beq_true _))
  case sknp x => exact (fetched_skipIf_pc ..).trans (congrArg s.skipTarget (beq_false _))
  case ldVxK x =>
    simp only [Instr.effect, State.pcAfterInstr, exists_pressed_iff, fetched_key]
    cases lowestPressed s.key <;> simp
  all_goals simp [Instr.effect, State.pcAfterInstr]

/-- Settles O8: the table of R26 row by row, the error rows by `step_outcome`. -/
theorem pcAfterEveryStep : Obligations.PcAfterEveryStep := by
  intro s t h
  unfold State.pcAfter
  obtain ⟨hpc, rfl⟩ | ⟨hpc, hse, k, d, rfl⟩ | ⟨hpc, i, hd, he, rfl⟩ := step_outcome h
  · rw [if_pos hpc]; rfl
  · rw [if_neg (by omega), if_pos hse]; rfl
  · rw [if_neg (by omega), if_neg (by simp [stepError_of_decode hpc hd, he]), hd]
    exact effect_fetched_pc i s

/-! ## The invariant -/

theorem skipTarget_le (s : State) (c : Bool) (hpc : s.pc.toNat ≤ 0xFFE) : (s.skipTarget c).toNat ≤ 0x10FE := by
  unfold State.skipTarget
  cases c <;> simp <;> bv_omega

/-- RET has an entry to pop where it raises no error. -/
theorem sp_pos_of_ret {s : State} (he : Instr.ret.error s = none) : 0 < s.sp.val := by
  simp only [Instr.error] at he
  split at he
  · cases he
  · omega

/-- CALL has room on the stack where it raises no error. -/
theorem sp_lt_of_call {s : State} {nnn : Addr12} (he : (Instr.call nnn).error s = none) : s.sp.val < 16 := by
  simp only [Instr.error] at he
  split at he
  · cases he
  · omega

/-- No entry of the table of R26 goes above 0x10FE (R28). -/
theorem pcAfterInstr_le {s : State} {i : Instr} (hs : s.Inv) (hpc : s.pc.toNat ≤ 0xFFE) (he : i.error s = none) :
    (s.pcAfterInstr i).toNat ≤ 0x10FE := by
  have hnext : (s.pc + 2).toNat ≤ 0x10FE := by bv_omega
  cases i
  case jp nnn | call nnn =>
    have := nnn.isLt
    simp only [State.pcAfterInstr, BitVec.toNat_ofNat]; omega
  case ret =>
    have hpos := sp_pos_of_ret he
    have e : Fin.ofNat 16 (s.sp.val - 1) = ⟨s.sp.val - 1, by omega⟩ := fin16_ofNat_eq rfl
    have := hs.stackInRange ⟨s.sp.val - 1, by omega⟩ (Nat.sub_lt hpos Nat.one_pos)
    simp only [State.pcAfterInstr, e]; omega
  case jpV0 nnn =>
    have := nnn.isLt
    have := (s.getV 0).isLt
    simp only [State.pcAfterInstr, BitVec.toNat_ofNat]; omega
  case ldVxK x =>
    simp only [State.pcAfterInstr]
    split
    · exact hnext
    · omega
  case seVxKk | sneVxKk | seVxVy | sneVxVy | skp | sknp => exact skipTarget_le s _ hpc
  all_goals exact hnext

theorem pcAfter_le {s : State} (hs : s.Inv) : s.pcAfter.toNat ≤ 0x10FE := by
  unfold State.pcAfter
  split
  · exact hs.pcInRange
  · next hpc =>
    have hpc : s.pc.toNat ≤ 0xFFE := Nat.le_of_not_lt hpc
    have hnext : (s.pc + 2).toNat ≤ 0x10FE := by bv_omega
    split
    · exact hnext
    · next hse =>
      cases hd : decodeWord s.fetchWord with
      | none => exact hnext
      | some i => exact pcAfterInstr_le hs hpc ((stepError_of_decode hpc hd).symm.trans (not_not.1 hse))

/-- I stays an address (R24): nnn, a sum modulo 4096, or the glyph of a digit up to F. -/
theorem effect_index_le {s : State} {i : Instr} (hi : s.i.toNat ≤ 0xFFF) (he : i.error s = none) :
    (i.effect s).i.toNat ≤ 0xFFF := by
  obtain h | ⟨nnn, rfl⟩ | ⟨x, rfl | rfl⟩ := effect_i i s
  · rwa [h]
  · have := nnn.isLt
    simp only [Instr.effect, zext16, BitVec.toNat_setWidth]; omega
  · simp only [Instr.effect, indexSum, BitVec.toNat_ofNat]; omega
  · have hd : ¬ 15 < (s.getV x).toNat := fun h => by simp [Instr.error, State.indexError, h] at he
    simp only [Instr.effect, glyphAddr, BitVec.toNat_ofNat]
    exact (Nat.mod_le ..).trans (by omega)

/-- A stack entry in use stays at most 0x1000 (R37): CALL pushes an advanced pc, RET uses one entry less. -/
theorem effect_stack_le {s : State} {i : Instr}
    (hstack : ∀ j : Fin 16, j.val < s.sp.val → (s.stack.get j).toNat ≤ 0x1000) (hpc : s.pc.toNat ≤ 0x1000)
    (he : i.error s = none) :
    ∀ j : Fin 16, j.val < (i.effect s).sp.val → ((i.effect s).stack.get j).toNat ≤ 0x1000 := by
  intro j hj
  obtain ⟨hsp, hst⟩ | rfl | ⟨nnn, rfl⟩ := effect_stack i s
  · rw [hst]; exact hstack j (hsp ▸ hj)
  · have hpos := sp_pos_of_ret he
    refine hstack j (Nat.lt_of_lt_of_le hj ?_)
    simp only [Instr.effect]
    rw [Fin.val_sub_one_of_ne_zero (Fin.pos_iff_ne_zero.1 hpos)]; omega
  · have hlt := sp_lt_of_call he
    simp only [Instr.effect, Vector.get_eq_getElem, Vector.getElem_setIfInBounds] at hj ⊢
    rw [Fin.val_add_one_of_lt (Fin.lt_def.2 hlt)] at hj
    split
    · exact hpc
    · exact hstack j (by omega)

theorem effect_memCanonical {s : State} {i : Instr} (hm : Memory.wf s.cfg.font s.mem) (he : i.error s = none) :
    Memory.wf (i.effect s).cfg.font (i.effect s).mem := by
  obtain h | ⟨x, rfl | rfl⟩ := effect_mem i s
  · rwa [(effect_cfg_key he).1, h]
  · exact writeBytes_wf hm ..
  · exact writeBytes_wf hm ..

/-- Settles O12: pc by the table of R26 (`pcAfterEveryStep`), the rest by what the instruction's effect keeps; a step
that reports an error writes none of it. -/
theorem everyStepKeepsTheInvariant : Obligations.EveryStepKeepsTheInvariant := by
  intro s t hs h
  have hpcAfter : t.pc.toNat ≤ 0x10FE := pcAfterEveryStep s t h ▸ pcAfter_le hs
  obtain ⟨-, rfl⟩ | ⟨-, -, k, d, rfl⟩ | ⟨hpc, i, -, he, rfl⟩ := step_outcome h
  · exact ⟨hs.memCanonical, hs.indexInRange, hpcAfter, hs.stackInRange⟩
  · exact ⟨hs.memCanonical, hs.indexInRange, hpcAfter, hs.stackInRange⟩
  · have hef : i.error s.fetched = none := (error_fetched i s).trans he
    have hadv : s.fetched.pc.toNat ≤ 0x1000 := by rw [fetched_pc]; bv_omega
    exact ⟨effect_memCanonical hs.memCanonical hef, effect_index_le hs.indexInRange hef, hpcAfter,
      effect_stack_le hs.stackInRange hadv hef⟩

/-! ## The invariant through the host's operations -/

/-- The host's reset has the invariant, whatever the state was: nothing is listed, and SP is 0. -/
theorem hostReset_inv (s : State) : s.hostReset.Inv where
  memCanonical := ⟨List.Pairwise.nil, fun _ hc => absurd hc List.not_mem_nil⟩
  indexInRange := (by decide : (0x000#16).toNat ≤ 0xFFF)
  pcInRange := (by decide : (0x200#16).toNat ≤ 0x10FE)
  stackInRange := fun _ hj => absurd hj (Nat.not_lt_zero _)

/-- Settles O13: the reset state is what the host's reset leaves of it. -/
theorem resetMeetsTheInvariant : Obligations.ResetMeetsTheInvariant := hostReset_inv State.reset

theorem writeBytes_inv {s : State} (hs : s.Inv) (base : Nat) (bs : List Byte) : (s.writeBytes base bs).Inv where
  memCanonical := writeBytes_wf hs.memCanonical base bs
  indexInRange := by rw [writeBytes_i]; exact hs.indexInRange
  pcInRange := by rw [writeBytes_pc]; exact hs.pcInRange
  stackInRange := by rw [writeBytes_sp, writeBytes_stack]; exact hs.stackInRange

theorem load_inv {s t : State} {bytes : List Byte} (hs : s.Inv) (h : s.load bytes = .next t) : t.Inv := by
  unfold State.load at h
  split at h
  · exact Host.Outcome.next.inj h ▸ writeBytes_inv hs ..
  · cases h

/-- Every host operation that answers a next state keeps the invariant. -/
theorem apply_inv {s t : State} {op : HostOp} (hs : s.Inv) (h : s.apply op = .next t) : t.Inv := by
  obtain ⟨hm, hi, hpc, hst⟩ := hs
  cases op with
  | reset => exact Host.Outcome.next.inj h ▸ hostReset_inv s
  | load bytes => exact load_inv ⟨hm, hi, hpc, hst⟩ h
  | step rnd => exact everyStepKeepsTheInvariant { s with rndIn := some rnd } t ⟨hm, hi, hpc, hst⟩ h
  | setKey k b => exact Host.Outcome.next.inj h ▸ ⟨hm, hi, hpc, hst⟩
  | clearFrameReady => exact Host.Outcome.next.inj h ▸ ⟨hm, hi, hpc, hst⟩

/-- Settles O14, by induction on the list of operations. -/
theorem hostSequencesKeepTheInvariant : Obligations.HostSequencesKeepTheInvariant := by
  intro ops
  induction ops with
  | nil => exact fun s hs => hs
  | cons op ops ih =>
    intro s hs
    unfold State.applyAll
    split
    · next t ht => exact ih t (apply_inv hs ht)
    · exact ih s hs

/-! ## Who writes what -/

/-- A write that raises no error is allowed (20_memory.md R49, R50). -/
theorem storeAllowed_of_storeError {s : State} {n : Nat} (hn : 0 < n) (h : s.storeError n = none) :
    s.StoreAllowed n := by
  unfold State.storeError at h
  split at h
  · cases h
  · split at h
    · cases h
    · rename_i hfont
      refine ⟨by omega, fun hp => ?_⟩
      simp only [hp, true_and] at hfont
      omega

/-- An allowed write leaves the font region where that is protected (20_memory.md R50). -/
theorem readByte_font_of_storeAllowed {s : State} {bs : List Byte} (h : s.StoreAllowed bs.length)
    (hp : s.cfg.fontWrite = .fault) {a : Nat} (hlo : 0x050 ≤ a) (hhi : a ≤ 0x09F) :
    (s.writeBytes s.i.toNat bs).readByte a = s.readByte a := by
  have := h.2 hp
  rw [readByte_writeBytes, dif_neg (by omega)]

theorem effect_font {i : Instr} {s : State} (he : i.error s = none) (hp : s.cfg.fontWrite = .fault) {a : Nat}
    (hlo : 0x050 ≤ a) (hhi : a ≤ 0x09F) : (i.effect s).readByte a = s.readByte a := by
  obtain h | ⟨x, rfl | rfl⟩ := effect_mem i s
  · exact readByte_congr h (effect_cfg_key he).1 a
  · have hall : s.StoreAllowed (bcdDigits (s.getV x)).length := storeAllowed_of_storeError (n := 3) (by decide) he
    exact readByte_font_of_storeAllowed hall hp hlo hhi
  · have hall : s.StoreAllowed ((regsUpTo x).map s.getV).length := by
      rw [List.length_map, regsUpTo_length]; exact storeAllowed_of_storeError (Nat.succ_pos _) he
    exact readByte_font_of_storeAllowed hall hp hlo hhi

/-- Settles O16: an error step writes no memory, and an instruction that raises none writes it by `effect_mem`. -/
theorem onlyStoresWriteMemoryAndNeverTheFont : Obligations.OnlyStoresWriteMemoryAndNeverTheFont := by
  intro s t h
  obtain ⟨-, rfl⟩ | ⟨-, -, k, d, rfl⟩ | ⟨hpc, i, hd, he, rfl⟩ := step_outcome h
  · exact ⟨fun ⟨a, ha⟩ => absurd rfl ha, fun _ _ _ _ => rfl⟩
  · exact ⟨fun ⟨a, ha⟩ => absurd rfl ha, fun _ _ _ _ => rfl⟩
  · rw [← error_fetched] at he
    refine ⟨fun ⟨a, ha⟩ => ⟨hpc, ?_⟩, fun hp a hlo hhi => effect_font he hp hlo hhi⟩
    obtain hm | ⟨x, hx⟩ := effect_mem i s.fetched
    · exact absurd (readByte_congr hm (effect_cfg_key he).1 a) ha
    · exact ⟨x, by simpa [hd] using hx⟩

/-- Settles O17: an error step writes no register, and an instruction that raises none writes them by `getV_effect`. -/
theorem registersWrittenAreThoseOfTheTable : Obligations.RegistersWrittenAreThoseOfTheTable := by
  intro s t i r _ hd h hr
  obtain ⟨-, rfl⟩ | ⟨-, -, k, d, rfl⟩ | ⟨-, j, hj, -, rfl⟩ := step_outcome h
  · rfl
  · rfl
  · obtain rfl := Option.some.inj (hd.symm.trans hj)
    exact getV_effect hr

/-- Settles O18: an error step writes none of them, and an instruction that raises none by `effect_i`, `effect_stack`
and `effect_cfg_key`. -/
theorem controlStateIsWrittenOnlyByItsInstructions : Obligations.ControlStateIsWrittenOnlyByItsInstructions := by
  intro s t h
  obtain ⟨-, rfl⟩ | ⟨-, -, k, d, rfl⟩ | ⟨-, i, hd, he, rfl⟩ := step_outcome h
  · exact ⟨fun hi => absurd rfl hi, fun hs => hs.elim (absurd rfl) (absurd rfl), rfl, rfl⟩
  · exact ⟨fun hi => absurd rfl hi, fun hs => hs.elim (absurd rfl) (absurd rfl), rfl, rfl⟩
  · rw [← error_fetched] at he
    obtain ⟨hcfg, hkey⟩ := effect_cfg_key he
    refine ⟨fun hi => ?_, fun hs => ?_, hkey, hcfg⟩
    · simpa [hd] using (effect_i i s.fetched).resolve_left hi
    · simpa [hd] using (effect_stack i s.fetched).resolve_left fun ⟨hsp, hst⟩ => hs.elim (absurd hsp) (absurd hst)

/-! ## The canonical form (log 6) -/

/-- A canonical memory lists exactly the bytes that read otherwise than the reset contents. -/
theorem Memory.mem_iff_read {font : Font} {m : Memory} (h : Memory.wf font m) (a : Nat) (v : Byte) :
    (a, v) ∈ m ↔ Memory.read font m a = v ∧ v ≠ Memory.unlisted font a := by
  obtain ⟨hp, hv⟩ := h
  induction m with
  | nil =>
    simp only [List.not_mem_nil, Memory.read, false_iff]
    exact fun ⟨he, hne⟩ => hne he.symm
  | cons c m ih =>
    obtain ⟨b, u⟩ := c
    obtain ⟨hlt, hp⟩ := List.pairwise_cons.1 hp
    obtain ⟨hb, hv⟩ := List.forall_mem_cons.1 hv
    by_cases hab : a = b
    · subst hab
      have hout : (a, v) ∉ m := fun hm => Nat.lt_irrefl a (hlt _ hm)
      simp only [List.mem_cons, Prod.mk.injEq, true_and, hout, or_false, Memory.read, if_true]
      exact ⟨fun e => ⟨e.symm, e ▸ hb.2⟩, fun e => e.1.symm⟩
    · simpa [Memory.read, hab] using ih hp hv

/-- Settles O41: two rising lists with the same members are equal. -/
theorem canonicalMemoriesThatReadAlikeAreEqual : Obligations.CanonicalMemoriesThatReadAlikeAreEqual := by
  intro font m m' hm hm' hread
  have hirrefl : Std.Irrefl fun c d : Host.Cell => c.1 < d.1 := ⟨fun _ => Nat.lt_irrefl _⟩
  have hanti : Std.Antisymm fun c d : Host.Cell => c.1 < d.1 := ⟨fun _ _ h h' => absurd h' (Nat.lt_asymm h)⟩
  exact hm.1.eq_of_mem_iff hm'.1 fun c => by rw [Memory.mem_iff_read hm, Memory.mem_iff_read hm', hread]

/-! ## The host's writes and reads -/

theorem hostReset_readByte (s : State) (a : Nat) : s.hostReset.readByte a = Memory.unlisted s.cfg.font a := rfl

/-- Settles O48: memory lists nothing, so every byte reads as the reset contents; the rest is the reset record. -/
theorem resetLeavesTheTable : Obligations.ResetLeavesTheTable := by
  intro s
  have hfont : ∀ k : Fin 80, s.hostReset.readByte (0x050 + k.val) = s.cfg.font.get k := fun k => by
    rw [hostReset_readByte, Memory.unlisted, dif_pos (by omega)]
    simp [Vector.get_eq_getElem]
  have hzero : ∀ a, a < 0x050 ∨ 0x0A0 ≤ a → s.hostReset.readByte a = 0 := fun a ha => by
    rw [hostReset_readByte, Memory.unlisted, dif_neg (by omega)]; rfl
  refine ⟨rfl, rfl, rfl, rfl, hfont, hzero, fun r => ?_, rfl, fun j => ?_, fun k => ?_, cell_clear, rfl, rfl, rfl, rfl⟩
  all_goals simp [State.getV, State.hostReset, State.reset, Vector.get_eq_getElem]

theorem setKey_get (s : State) (k j : Key) (b : Bool) :
    (s.setKey k b).key.get j = if j = k then b else s.key.get j := by
  simp only [State.setKey, Vector.get_eq_getElem, Vector.getElem_set, Fin.ext_iff, eq_comm]

theorem soundActive_iff (s : State) : s.soundActive = true ↔ 0 < s.st.toNat := by
  rw [State.soundActive, bne_iff_ne, Nat.pos_iff_ne_zero, not_iff_not, ← BitVec.toNat_inj]; rfl

/-- Settles O50: the two writes by their definitions, the key file by `setKey_get`. -/
theorem hostWritesAndReads : Obligations.HostWritesAndReads :=
  fun s k b => ⟨fun j => setKey_get s k j b, rfl, rfl, soundActive_iff s⟩

/-! ## What a step can learn: the two inputs of a step, its random byte and the keys -/

/-- The state with other inputs: the random byte of the step about to run, and the keys (10_state.md R33, R46). -/
def State.withInputs (s : State) (rnd : Option Byte) (keys : Vector Bool 16) : State :=
  { s with rndIn := rnd, key := keys }

section withInputs
variable (s : State) (rnd : Option Byte) (keys : Vector Bool 16)

theorem skipIf_withInputs (c : Bool) : (s.withInputs rnd keys).skipIf c = (s.skipIf c).withInputs rnd keys := by
  cases c <;> rfl

theorem flagThenResult_withInputs (x y : Reg) (c : Byte → Byte → Bool) (op : Byte → Byte → Byte) :
    flagThenResult x y c op (s.withInputs rnd keys) = (flagThenResult x y c op s).withInputs rnd keys := by
  have hcfg : (s.withInputs rnd keys).cfg = s.cfg := rfl
  unfold flagThenResult
  rw [hcfg]
  cases s.cfg.vfReading <;> rfl

theorem writeBytes_withInputs (base : Nat) (bs : List Byte) :
    (s.withInputs rnd keys).writeBytes base bs = (s.writeBytes base bs).withInputs rnd keys := by
  induction bs generalizing s base with
  | nil => rfl
  | cons b bs ih => exact ih (s.writeByte base b) (base + 1)

theorem foldl_setV_withInputs (f : Reg → Byte) (rs : List Reg) :
    rs.foldl (fun t q => t.setV q (f q)) (s.withInputs rnd keys) =
      (rs.foldl (fun t q => t.setV q (f q)) s).withInputs rnd keys := by
  induction rs generalizing s with
  | nil => rfl
  | cons q rs ih => exact ih (s.setV q (f q))

theorem error_withInputs (i : Instr) : i.error (s.withInputs rnd keys) = i.error s := by cases i <;> rfl

variable {s rnd keys}

/-- At the end of its step an effect is the same with other inputs, where the instruction reads none that changed; the
keys are handed on. -/
theorem effect_withInputs {i : Instr} (hrnd : rnd = s.rndIn ∨ ∀ x kk, i ≠ .rnd x kk)
    (hkeys : keys = s.key ∨ ∀ x, i ≠ .skp x ∧ i ≠ .sknp x ∧ i ≠ .ldVxK x) :
    (i.effect (s.withInputs rnd keys)).endStep = { (i.effect s).endStep with key := keys } := by
  cases i
  case rnd x kk =>
    obtain rfl := hrnd.resolve_right fun h => h x kk rfl
    rfl
  case skp x =>
    obtain rfl := hkeys.resolve_right fun h => (h x).1 rfl
    rw [Instr.effect, skipIf_withInputs]; rfl
  case sknp x =>
    obtain rfl := hkeys.resolve_right fun h => (h x).2.1 rfl
    rw [Instr.effect, skipIf_withInputs]; rfl
  case ldVxK x =>
    obtain rfl := hkeys.resolve_right fun h => (h x).2.2 rfl
    have hkey : (s.withInputs rnd s.key).key = s.key := rfl
    simp only [Instr.effect, hkey]
    cases lowestPressed s.key <;> rfl
  case seVxKk | sneVxKk | seVxVy | sneVxVy => rw [Instr.effect, skipIf_withInputs]; rfl
  case sub | shr | subn | shl => rw [Instr.effect, flagThenResult_withInputs]; rfl
  case ldBVx | ldMemVx => rw [Instr.effect, writeBytes_withInputs]; rfl
  case ldVxMem => rw [Instr.effect, foldl_setV_withInputs]; rfl
  all_goals rfl

/-- A step is the same with other inputs, where the instruction at pc reads none that changed; the keys are handed
on. -/
theorem step_withInputs (hrnd : rnd = s.rndIn ∨ ∀ x kk, decodeWord s.fetchWord ≠ some (.rnd x kk))
    (hkeys : keys = s.key ∨ ∀ x, decodeWord s.fetchWord ≠ some (.skp x) ∧ decodeWord s.fetchWord ≠ some (.sknp x) ∧
      decodeWord s.fetchWord ≠ some (.ldVxK x)) :
    ∃ t, step s = .next t ∧ step (s.withInputs rnd keys) = .next { t with key := keys } := by
  by_cases hpc : s.pc.toNat ≤ 0xFFE
  · cases hd : decodeWord s.fetchWord with
    | none => exact ⟨_, step_of_unrecognized hpc hd, step_of_unrecognized (s := s.withInputs rnd keys) hpc hd⟩
    | some i =>
      simp only [hd, ne_eq, Option.some.injEq] at hrnd hkeys
      refine ⟨_, step_of_decode hpc hd, (step_of_decode (s := s.withInputs rnd keys) hpc hd).trans ?_⟩
      rw [error_withInputs]
      cases i.error s with
      | none => exact congrArg _ (effect_withInputs (s := s.fetched) hrnd hkeys)
      | some e => rfl
  · exact ⟨_, step_of_unfetchable (Nat.lt_of_not_le hpc),
      step_of_unfetchable (s := s.withInputs rnd keys) (Nat.lt_of_not_le hpc)⟩

end withInputs

/-- Settles O19: with either byte the step is the one with the host's byte left as it is. -/
theorem randomByteMattersOnlyToRnd : Obligations.RandomByteMattersOnlyToRnd := by
  intro s b b' h
  obtain ⟨t, ht, hb⟩ := step_withInputs (rnd := some b) (.inr h) (.inl rfl)
  obtain ⟨t', ht', hb'⟩ := step_withInputs (rnd := some b') (.inr h) (.inl rfl)
  obtain rfl := Host.Outcome.next.inj (ht.symm.trans ht')
  exact hb.trans hb'.symm

/-- Settles O20: the step with other keys and the same random byte. -/
theorem keysMatterOnlyToKeyInstructions : Obligations.KeysMatterOnlyToKeyInstructions :=
  fun _ _ h => step_withInputs (.inl rfl) (.inr h)

end Sys2Proof.Machine

namespace Sys2Proof.Machine

/-! ## Stores and what reads them -/

/-- The converse of `storeAllowed_of_storeError`. -/
theorem storeError_of_storeAllowed {s : State} {n : Nat} (h : s.StoreAllowed n) : s.storeError n = none := by
  obtain ⟨hrange, hfont⟩ := h
  unfold State.storeError
  rw [if_neg (by omega), if_neg]
  rintro ⟨hp, -, hlo, hhi⟩
  have := hfont hp
  omega

/-- A stored byte reads back where its address is memory (20_memory.md R47). -/
theorem readByte_writeBytes_getElem {s : State} {base k : Nat} {bs : List Byte} (hk : k < bs.length)
    (hmem : base + k < memSize) : (s.writeBytes base bs).readByte (base + k) = bs[k] := by
  rw [readByte_writeBytes, dif_pos (by omega)]
  simp only [Nat.add_sub_cancel_left]

theorem onlyBytes_writeBytes (s : State) (base : Nat) (bs : List Byte) :
    OnlyBytes s (s.writeBytes base bs) base bs.length :=
  ⟨writeBytes_only_mem s base bs, fun _ ha => by rw [readByte_writeBytes, dif_neg (by omega)]⟩

/-- What an allowed dump leaves (43_index_memory.md R112). -/
theorem exec_ldMemVx_of_storeAllowed {x : Reg} {s : State} (h : s.StoreAllowed (x.val + 1)) :
    exec (.ldMemVx x) s = .next (s.writeBytes s.i.toNat ((regsUpTo x).map s.getV)) := by
  rw [exec_ldMemVx_eq, storeError_of_storeAllowed h]

/-- After an allowed dump the byte at I + r is V[r] (43_index_memory.md R112). -/
theorem readByte_dump {x r : Reg} {s : State} (h : s.StoreAllowed (x.val + 1)) (hr : r ≤ x) :
    (s.writeBytes s.i.toNat ((regsUpTo x).map s.getV)).readByte (s.i.toNat + r.val) = s.getV r := by
  have hrange : s.i.toNat + (x.val + 1) ≤ memSize := h.1
  have hrx : r.val ≤ x.val := hr
  have hlen : r.val < (regsUpTo x).length := by rw [regsUpTo_length]; omega
  rw [readByte_writeBytes_getElem (by rwa [List.length_map]) (by omega), List.getElem_map]
  exact congrArg s.getV (Fin.ext (regsUpTo_getElem x r.val hlen))

/-- Settles O40: pc is unchanged, and the fetch reads the two dumped bytes by `readByte_dump`. -/
theorem dumpedWordIsFetched : Obligations.DumpedWordIsFetched := by
  intro x k l s hall hl hlx hpc
  have hkx : k ≤ x := Fin.le_def.2 (by have := Fin.le_def.1 hlx; omega)
  refine ⟨_, exec_ldMemVx_of_storeAllowed hall, ?_⟩
  rw [State.fetchWord, writeBytes_pc, hpc, State.readWord, readByte_dump hall hkx, Nat.add_assoc, ← hl,
    readByte_dump hall hlx, wordOfBytes]

theorem imageWellFormed_iff (image : List Byte) : imageWellFormed image = true ↔ image.length ≤ 3584 := by
  rw [imageWellFormed, decide_eq_true_iff, progMax]

/-- Settles O49: `load` is `writeBytes` at 0x200 where the image fits, and 0x200 + 3584 is the end of memory. -/
theorem loadCopiesTheImage : Obligations.LoadCopiesTheImage := by
  intro image s
  refine ⟨fun hfits => ⟨s.writeBytes 0x200 image, ?_, fun k hk => ?_, onlyBytes_writeBytes s 0x200 image⟩, fun hlong => ?_⟩
  · rw [State.load, if_pos ((imageWellFormed_iff image).2 hfits)]
  · exact readByte_writeBytes_getElem hk (by rw [memSize]; omega)
  · rw [State.load, if_neg (by rw [imageWellFormed_iff]; omega)]

end Sys2Proof.Machine

namespace Sys2Proof

/-! ## Fields of formats (30_encoding.md R64, R65) -/

section fieldsOfFormats

@[simp] theorem fieldN1_formatA (g : BitVec 4) (nnn : Addr12) : fieldN1 (formatA g nnn) = g := by
  apply BitVec.eq_of_toNat_eq
  rw [fieldN1_toNat, formatA_toNat]; omega

@[simp] theorem fieldNnn_formatA (g : BitVec 4) (nnn : Addr12) : fieldNnn (formatA g nnn) = nnn := by
  apply BitVec.eq_of_toNat_eq
  rw [fieldNnn_toNat, formatA_toNat]; omega

variable (g : BitVec 4) (x y : Reg) (n : BitVec 4) (kk : Byte)

@[simp] theorem fieldN1_formatXK : fieldN1 (formatXK g x kk) = g := by
  apply BitVec.eq_of_toNat_eq
  rw [fieldN1_toNat, formatXK_toNat]; omega

@[simp] theorem fieldX_formatXK : fieldX (formatXK g x kk) = x := by
  apply Fin.ext
  rw [fieldX_val, formatXK_toNat]; omega

@[simp] theorem fieldKk_formatXK : fieldKk (formatXK g x kk) = kk := by
  apply BitVec.eq_of_toNat_eq
  rw [fieldKk_toNat, formatXK_toNat]; omega

@[simp] theorem fieldN1_formatXYN : fieldN1 (formatXYN g x y n) = g := by
  apply BitVec.eq_of_toNat_eq
  rw [fieldN1_toNat, formatXYN_toNat]; omega

@[simp] theorem fieldX_formatXYN : fieldX (formatXYN g x y n) = x := by
  apply Fin.ext
  rw [fieldX_val, formatXYN_toNat]; omega

@[simp] theorem fieldY_formatXYN : fieldY (formatXYN g x y n) = y := by
  apply Fin.ext
  rw [fieldY_val, formatXYN_toNat]; omega

@[simp] theorem fieldN_formatXYN : fieldN (formatXYN g x y n) = n.toFin := by
  apply Fin.ext
  show _ = n.toNat
  rw [fieldN_val, formatXYN_toNat]; omega

end fieldsOfFormats

/-! ## The decoder reads back what the encoder wrote -/

/-- The group of each format selects its arm, and there every field reads back; the selector, where there is one, is a
literal. -/
@[simp] theorem decodeWord_encodeWord (i : Instr) : decodeWord (encodeWord i) = some i := by
  cases i
  -- the fixed words
  case cls | ret => rfl
  -- format A
  case jp | call | ldI | jpV0 => simp [encodeWord, decodeWord]
  -- format XK
  case seVxKk | sneVxKk | ldVxKk | addVxKk | rnd => simp [encodeWord, decodeWord]
  -- format XY: the low nibble is 0, or in group 0x8 selects
  case seVxVy | sneVxVy => simp [encodeWord, decodeWord]
  case ldVxVy | or | and | xor | addVxVy | sub | shr | subn | shl => simp [encodeWord, decodeWord, decodeGroup8]
  -- format XYN
  case drw => simp [encodeWord, decodeWord, nibble]
  -- format XS: the low byte selects
  case skp | sknp => simp [encodeWord, decodeWord, decodeGroupE]
  case ldVxDt | ldVxK | ldDtVx | ldStVx | addIVx | ldFVx | ldBVx | ldMemVx | ldVxMem =>
    simp [encodeWord, decodeWord, decodeGroupF]

/-- Settles O1: the two bytes make the instruction's word, and the word decodes to the instruction. -/
theorem decodeOfEncodeIsTheInstruction : Obligations.DecodeOfEncodeIsTheInstruction := by
  intro i rest
  rw [encode, decode_bytesOfWord, decodeWord_encodeWord]

/-! ## The formats of a word's fields

A word of group `g` is the format over its own fields. A second hypothesis gives the bits that a selector fixes. -/

section formatsOfFields
variable {w : Word} {g : BitVec 4}

theorem formatA_fields (hg : (fieldN1 w).toNat = g.toNat) : formatA g (fieldNnn w) = w := by
  apply BitVec.eq_of_toNat_eq
  rw [formatA_toNat, ← hg, fieldN1_toNat, fieldNnn_toNat]; omega

theorem formatXK_fields (hg : (fieldN1 w).toNat = g.toNat) : formatXK g (fieldX w) (fieldKk w) = w := by
  apply BitVec.eq_of_toNat_eq
  rw [formatXK_toNat, ← hg, fieldN1_toNat, fieldX_val, fieldKk_toNat]; omega

theorem formatXYN_fields (hg : (fieldN1 w).toNat = g.toNat) :
    formatXYN g (fieldX w) (fieldY w) (nibble (fieldN w)) = w := by
  apply BitVec.eq_of_toNat_eq
  rw [formatXYN_toNat, ← hg, fieldN1_toNat, fieldX_val, fieldY_val, nibble_toNat, fieldN_val]; omega

/-- Format XS: the low byte is the selector SS. -/
theorem formatXS_fields {kk : Byte} (hg : (fieldN1 w).toNat = g.toNat) (hkk : w.toNat % 2 ^ 8 = kk.toNat) :
    formatXK g (fieldX w) kk = w := by
  have h : fieldKk w = kk := BitVec.eq_of_toNat_eq ((fieldKk_toNat w).trans hkk)
  exact h ▸ formatXK_fields hg

/-- Format XY: the low nibble is the selector. -/
theorem formatXY_fields {n : BitVec 4} (hg : (fieldN1 w).toNat = g.toNat) (hn : w.toNat % 2 ^ 4 = n.toNat) :
    formatXYN g (fieldX w) (fieldY w) n = w := by
  have h : nibble (fieldN w) = n := BitVec.eq_of_toNat_eq ((fieldN_val w).trans hn)
  exact h ▸ formatXYN_fields hg

/-- A word that its group and its other 12 bits fix. -/
theorem fixedWord_fields {v : Word} (hg : (fieldN1 w).toNat = v.toNat / 4096) (hn : w.toNat % 2 ^ 12 = v.toNat % 4096) :
    v = w := by
  apply BitVec.eq_of_toNat_eq
  rw [fieldN1_toNat] at hg
  omega

end formatsOfFields

/-! ## The encoder writes back what the decoder read -/

/-- Settles O2: every arm of the decoder takes its operands from the fields of its group's format. -/
theorem encodeOfDecodeIsTheWord : Obligations.EncodeOfDecodeIsTheWord := by
  intro w i h
  unfold decodeWord at h
  split at h
  -- group 0x0: the fixed words
  case h_1 =>
    unfold decodeGroup0 at h
    split_ifs at h with hw hw <;> cases h <;> exact hw.symm
  -- groups 0x1, 0x2, 0xA, 0xB
  case h_2 hg | h_3 hg | h_11 hg | h_12 hg => cases h; exact formatA_fields hg
  -- groups 0x3, 0x4, 0x6, 0x7, 0xC
  case h_4 hg | h_5 hg | h_7 hg | h_8 hg | h_13 hg => cases h; exact formatXK_fields hg
  -- groups 0x5, 0x9: the low nibble is 0
  case h_6 hg | h_10 hg =>
    split_ifs at h with hn
    cases h; exact formatXY_fields hg ((fieldN_val w).symm.trans (congrArg Fin.val hn))
  -- group 0x8: the low nibble selects
  case h_9 hg =>
    unfold decodeGroup8 at h
    split at h <;> cases h <;> exact formatXY_fields hg ((fieldN_val w).symm.trans ‹_›)
  -- group 0xD
  case h_14 hg => cases h; exact formatXYN_fields hg
  -- groups 0xE, 0xF: the low byte selects
  case h_15 hg =>
    unfold decodeGroupE at h
    split at h <;> cases h <;> exact formatXS_fields hg ((fieldKk_toNat w).symm.trans ‹_›)
  case h_16 =>
    have hg : (fieldN1 w).toNat = 15 := by
      have := (fieldN1 w).isLt
      simp only [imp_false] at *
      omega
    unfold decodeGroupF at h
    split at h <;> cases h <;> exact formatXS_fields hg ((fieldKk_toNat w).symm.trans ‹_›)

/-! ## The opcode table (30_encoding.md R84) -/

/-- The mnemonic names the row. -/
theorem mnemonic_injOn : ∀ r ∈ opcodeTable, ∀ q ∈ opcodeTable, r.mnemonic = q.mnemonic → r = q := by decide

/-- How each row below is shown: what its mask fixes, the group and the low `k` bits, makes the word the instruction's. -/
theorem instr_of_row {w : Word} {r : Row} (k : Nat) (i : Instr)
    (he : (fieldN1 w).toNat = r.pattern.toNat / 4096 → w.toNat % 2 ^ k = r.pattern.toNat % 4096 → encodeWord i = w)
    (hn : i.mnemonic = r.mnemonic := by rfl) (hk : k ≤ 12 := by decide)
    (hm : r.mask = 0xF000#16 ||| BitVec.ofNat 16 (2 ^ k - 1) := by decide) :
    r.accepts w = true → ∃ i, encodeWord i = w ∧ i.mnemonic = r.mnemonic := by
  intro hacc
  have hp := (accepts_iff r k hk hm w).1 hacc
  have hlow : w.toNat % 2 ^ k < 4096 :=
    lt_of_lt_of_le (Nat.mod_lt _ (Nat.two_pow_pos k)) (Nat.pow_le_pow_right (by decide) hk)
  exact ⟨i, he (by rw [fieldN1_toNat]; omega) (by omega), hn⟩

/-- A word that a row accepts is the encoding of an instruction with the row's mnemonic. -/
theorem exists_instr_of_accepts {w : Word} :
    ∀ r ∈ opcodeTable, r.accepts w = true → ∃ i, encodeWord i = w ∧ i.mnemonic = r.mnemonic := by
  rw [← List.forall_iff_forall_mem]
  exact ⟨
    instr_of_row 12 .cls fun hg hn => fixedWord_fields hg hn,
    instr_of_row 12 .ret fun hg hn => fixedWord_fields hg hn,
    instr_of_row 0 (.jp (fieldNnn w)) fun hg _ => formatA_fields hg,
    instr_of_row 0 (.call (fieldNnn w)) fun hg _ => formatA_fields hg,
    instr_of_row 0 (.seVxKk (fieldX w) (fieldKk w)) fun hg _ => formatXK_fields hg,
    instr_of_row 0 (.sneVxKk (fieldX w) (fieldKk w)) fun hg _ => formatXK_fields hg,
    instr_of_row 4 (.seVxVy (fieldX w) (fieldY w)) fun hg hn => formatXY_fields hg hn,
    instr_of_row 0 (.ldVxKk (fieldX w) (fieldKk w)) fun hg _ => formatXK_fields hg,
    instr_of_row 0 (.addVxKk (fieldX w) (fieldKk w)) fun hg _ => formatXK_fields hg,
    instr_of_row 4 (.ldVxVy (fieldX w) (fieldY w)) fun hg hn => formatXY_fields hg hn,
    instr_of_row 4 (.or (fieldX w) (fieldY w)) fun hg hn => formatXY_fields hg hn,
    instr_of_row 4 (.and (fieldX w) (fieldY w)) fun hg hn => formatXY_fields hg hn,
    instr_of_row 4 (.xor (fieldX w) (fieldY w)) fun hg hn => formatXY_fields hg hn,
    instr_of_row 4 (.addVxVy (fieldX w) (fieldY w)) fun hg hn => formatXY_fields hg hn,
    instr_of_row 4 (.sub (fieldX w) (fieldY w)) fun hg hn => formatXY_fields hg hn,
    instr_of_row 4 (.shr (fieldX w) (fieldY w)) fun hg hn => formatXY_fields hg hn,
    instr_of_row 4 (.subn (fieldX w) (fieldY w)) fun hg hn => formatXY_fields hg hn,
    instr_of_row 4 (.shl (fieldX w) (fieldY w)) fun hg hn => formatXY_fields hg hn,
    instr_of_row 4 (.sneVxVy (fieldX w) (fieldY w)) fun hg hn => formatXY_fields hg hn,
    instr_of_row 0 (.ldI (fieldNnn w)) fun hg _ => formatA_fields hg,
    instr_of_row 0 (.jpV0 (fieldNnn w)) fun hg _ => formatA_fields hg,
    instr_of_row 0 (.rnd (fieldX w) (fieldKk w)) fun hg _ => formatXK_fields hg,
    instr_of_row 0 (.drw (fieldX w) (fieldY w) (fieldN w)) fun hg _ => formatXYN_fields hg,
    instr_of_row 8 (.skp (fieldX w)) fun hg hn => formatXS_fields hg hn,
    instr_of_row 8 (.sknp (fieldX w)) fun hg hn => formatXS_fields hg hn,
    instr_of_row 8 (.ldVxDt (fieldX w)) fun hg hn => formatXS_fields hg hn,
    instr_of_row 8 (.ldVxK (fieldX w)) fun hg hn => formatXS_fields hg hn,
    instr_of_row 8 (.ldDtVx (fieldX w)) fun hg hn => formatXS_fields hg hn,
    instr_of_row 8 (.ldStVx (fieldX w)) fun hg hn => formatXS_fields hg hn,
    instr_of_row 8 (.addIVx (fieldX w)) fun hg hn => formatXS_fields hg hn,
    instr_of_row 8 (.ldFVx (fieldX w)) fun hg hn => formatXS_fields hg hn,
    instr_of_row 8 (.ldBVx (fieldX w)) fun hg hn => formatXS_fields hg hn,
    instr_of_row 8 (.ldMemVx (fieldX w)) fun hg hn => formatXS_fields hg hn,
    instr_of_row 8 (.ldVxMem (fieldX w)) fun hg hn => formatXS_fields hg hn⟩

end Sys2Proof

namespace Sys2Proof.Laws.EncodeMatchesRow

/-- The family of Laws/PerInstr.lean as one statement. -/
theorem statement_of_instr : ∀ i : Instr, Statement i
  | .cls => cls | .ret => ret | .jp nnn => jp nnn | .call nnn => call nnn | .seVxKk x kk => seVxKk x kk
  | .sneVxKk x kk => sneVxKk x kk | .seVxVy x y => seVxVy x y | .ldVxKk x kk => ldVxKk x kk
  | .addVxKk x kk => addVxKk x kk | .ldVxVy x y => ldVxVy x y | .or x y => or x y | .and x y => and x y
  | .xor x y => xor x y | .addVxVy x y => addVxVy x y | .sub x y => sub x y | .shr x y => shr x y | .subn x y => subn x y
  | .shl x y => shl x y | .sneVxVy x y => sneVxVy x y | .ldI nnn => ldI nnn | .jpV0 nnn => jpV0 nnn
  | .rnd x kk => rnd x kk | .drw x y n => drw x y n | .skp x => skp x | .sknp x => sknp x | .ldVxDt x => ldVxDt x
  | .ldVxK x => ldVxK x | .ldDtVx x => ldDtVx x | .ldStVx x => ldStVx x | .addIVx x => addIVx x | .ldFVx x => ldFVx x
  | .ldBVx x => ldBVx x | .ldMemVx x => ldMemVx x | .ldVxMem x => ldVxMem x

end Sys2Proof.Laws.EncodeMatchesRow

namespace Sys2Proof

/-- A row accepts exactly the words that decode to its instruction. -/
theorem accepts_iff_decodes {r : Row} (hr : r ∈ opcodeTable) (w : Word) :
    r.accepts w = true ↔ ∃ i, decodeWord w = some i ∧ i.mnemonic = r.mnemonic := by
  constructor
  · intro h
    obtain ⟨i, rfl, hm⟩ := exists_instr_of_accepts r hr h
    exact ⟨i, decodeWord_encodeWord i, hm⟩
  · rintro ⟨i, hd, hm⟩
    obtain ⟨q, hq, hqm, hacc⟩ := Laws.EncodeMatchesRow.statement_of_instr i
    rwa [encodeOfDecodeIsTheWord w i hd, mnemonic_injOn q hq r hr (hqm.trans hm)] at hacc

/-- Recognized by the table is recognized by the decoder (30_encoding.md R72). -/
theorem wordWellFormed_iff (w : Word) : wordWellFormed w = true ↔ ∃ i, decodeWord w = some i := by
  rw [wordWellFormed, List.any_eq_true]
  constructor
  · rintro ⟨r, hr, hacc⟩
    obtain ⟨i, hd, -⟩ := (accepts_iff_decodes hr w).1 hacc
    exact ⟨i, hd⟩
  · rintro ⟨i, hd⟩
    obtain ⟨r, hr, -, hacc⟩ := Laws.EncodeMatchesRow.statement_of_instr i
    exact ⟨r, hr, encodeOfDecodeIsTheWord w i hd ▸ hacc⟩

/-- Settles O3: two rows that accept a word have the mnemonic of the one instruction it decodes to. -/
theorem decoderAgreesWithOpcodeTable : Obligations.DecoderAgreesWithOpcodeTable := by
  intro w
  refine ⟨fun r hr => accepts_iff_decodes hr w, fun r hr q hq hra hqa => ?_, ?_⟩
  · obtain ⟨i, hi, hir⟩ := (accepts_iff_decodes hr w).1 hra
    obtain ⟨j, hj, hjq⟩ := (accepts_iff_decodes hq w).1 hqa
    obtain rfl := Option.some.inj (hi.symm.trans hj)
    exact mnemonic_injOn r hr q hq (hir.symm.trans hjq)
  · rw [← Bool.not_eq_true, wordWellFormed_iff, ← Option.isSome_iff_exists, Option.not_isSome_iff_eq_none]

end Sys2Proof

namespace Sys2Proof.Machine

/-! ## The step's two bytes and its report (30_encoding.md R68, R79) -/

theorem decode_pair (hi lo : Byte) : decode [hi, lo] =
    (decodeWord (wordOfBytes hi lo)).elim (.error (.unrecognizedOpcode (wordOfBytes hi lo))) fun i => .ok (i, []) := by
  rw [decode]
  cases decodeWord (wordOfBytes hi lo) <;> rfl

theorem decode_pair_eq_ok {hi lo : Byte} {i : Instr} (h : decode [hi, lo] = .ok (i, [])) :
    decodeWord (wordOfBytes hi lo) = some i := by
  rw [decode_pair] at h
  cases hd : decodeWord (wordOfBytes hi lo) <;> rw [hd] at h <;> cases h
  rfl

theorem decode_pair_eq_unrecognized {hi lo : Byte} {w : Word} (h : decode [hi, lo] = .error (.unrecognizedOpcode w)) :
    decodeWord (wordOfBytes hi lo) = none ∧ wordOfBytes hi lo = w := by
  rw [decode_pair] at h
  cases hd : decodeWord (wordOfBytes hi lo) <;> rw [hd] at h <;> cases h
  exact ⟨rfl, rfl⟩

/-- What a step that fetched reports (60_exceptions.md R128): its fetch address and the word there. -/
theorem raise_fetched_err (k : ErrorKind) (d : Nat) (s : State) :
    (raise k d s.fetched).err = some { kind := k, a := s.pc, w := some s.fetchWord, detail := d } := by
  rw [raise_err, fetched_pc_sub]; rfl

/-- Settles O5: the three branches of 30_encoding.md R67. -/
theorem stepFetchesExecutesAndTicks : Obligations.StepFetchesExecutesAndTicks := by
  intro s
  refine ⟨fun hpc => ?_, fun w hpc hdec => ?_, fun i t hpc hdec hexec => ?_⟩
  · exact step_of_unfetchable hpc
  · obtain ⟨hd, rfl⟩ := decode_pair_eq_unrecognized hdec
    rw [step_of_unrecognized hpc hd, raise_only_report, raise_fetched_err]
    rfl
  · rw [step, if_pos ((fetchable_iff s).2 hpc), show decodeWord s.fetchWord = some i from decode_pair_eq_ok hdec]
    exact retire_next hexec

/-! ## The timers (30_encoding.md R71) -/

section timers
@[simp] theorem writeBytes_dt (s : State) (base : Nat) (bs : List Byte) : (s.writeBytes base bs).dt = s.dt := by
  rw [writeBytes_only_mem]
@[simp] theorem writeBytes_st (s : State) (base : Nat) (bs : List Byte) : (s.writeBytes base bs).st = s.st := by
  rw [writeBytes_only_mem]
@[simp] theorem foldl_setV_dt (f : Reg → Byte) (rs : List Reg) (s : State) :
    (rs.foldl (fun t q => t.setV q (f q)) s).dt = s.dt := by rw [foldl_setV_only_v]
@[simp] theorem foldl_setV_st (f : Reg → Byte) (rs : List Reg) (s : State) :
    (rs.foldl (fun t q => t.setV q (f q)) s).st = s.st := by rw [foldl_setV_only_v]
end timers

/-- DT is written by Fx15 alone, ST by Fx18 alone. -/
theorem effect_timers (i : Instr) (s : State) :
    ((i.effect s).dt = s.dt ∨ ∃ x, i = .ldDtVx x) ∧ ((i.effect s).st = s.st ∨ ∃ x, i = .ldStVx x) := by
  cases i
  case ldDtVx x => exact ⟨.inr ⟨x, rfl⟩, .inl rfl⟩
  case ldStVx x => exact ⟨.inl rfl, .inr ⟨x, rfl⟩⟩
  case ldVxK x => cases h : lowestPressed s.key <;> simp [Instr.effect, h]
  all_goals exact ⟨.inl (by simp [Instr.effect]), .inl (by simp [Instr.effect])⟩

/-- A step ends in the tick of a state that has the timers of before, but for the one that the step's Fx15 or Fx18 wrote. -/
theorem step_timers {s t : State} (h : step s = .next t) : ∃ u : State, t = u.endStep ∧
    (u.dt = s.dt ∨ ∃ x, s.pc.toNat ≤ 0xFFE ∧ decodeWord s.fetchWord = some (.ldDtVx x)) ∧
    (u.st = s.st ∨ ∃ x, s.pc.toNat ≤ 0xFFE ∧ decodeWord s.fetchWord = some (.ldStVx x)) := by
  rcases step_outcome h with ⟨-, rfl⟩ | ⟨-, -, k, d, rfl⟩ | ⟨hpc, i, hd, -, rfl⟩
  · exact ⟨_, rfl, .inl rfl, .inl rfl⟩
  · exact ⟨_, rfl, .inl rfl, .inl rfl⟩
  · obtain ⟨hdt, hst⟩ := effect_timers i s.fetched
    refine ⟨_, rfl, hdt.imp id ?_, hst.imp id ?_⟩
    · rintro ⟨x, rfl⟩; exact ⟨x, hpc, hd⟩
    · rintro ⟨x, rfl⟩; exact ⟨x, hpc, hd⟩

/-- Settles O7: the tick takes what Fx15 or Fx18 wrote, and in every other step the timer as it was. -/
theorem timersTickInEveryStep : Obligations.TimersTickInEveryStep := by
  intro s t h
  have ran {i : Instr} (hpc : s.pc.toNat ≤ 0xFFE) (hd : decodeWord s.fetchWord = some i) :=
    Host.Outcome.next.inj (h.symm.trans (step_of_decode hpc hd))
  obtain ⟨u, hu, hdt, hst⟩ := step_timers h
  refine ⟨fun x hpc hd => ?_, fun hno => ?_, fun x hpc hd => ?_, fun hno => ?_⟩
  · rw [ran hpc hd]; exact tick_toNat (s.getV x)
  · rw [hu, endStep_dt, tick_toNat, hdt.resolve_right hno]
  · rw [ran hpc hd]; exact tick_toNat (s.getV x)
  · rw [hu, endStep_st, tick_toNat, hst.resolve_right hno]

end Sys2Proof.Machine

namespace Sys2Proof

/-- Settles O4: seven words are the encodings of their instructions, and the low nibble of 0x5121 is not 0 (R74). -/
theorem exampleWordsDecode : Obligations.ExampleWordsDecode :=
  ⟨decodeOfEncodeIsTheInstruction (.jp 0x234) [], decodeOfEncodeIsTheInstruction (.seVxKk 3 0x42) [],
    decodeOfEncodeIsTheInstruction (.addVxVy 0 1) [], decodeOfEncodeIsTheInstruction (.ldI 0x2F0) [],
    decodeOfEncodeIsTheInstruction (.drw 0 1 5) [], decodeOfEncodeIsTheInstruction (.skp 1) [],
    decodeOfEncodeIsTheInstruction (.ldBVx 5) [], by decide⟩

end Sys2Proof

namespace Sys2Proof.Machine

/-! ## An instruction with and without an error -/

theorem exec_of_error {i : Instr} {s : State} {k : ErrorKind} {d : Nat} (he : i.error s = some (k, d)) :
    exec i s = .next (raise k d s) := by
  rw [exec_eq_raiseOr, he]; rfl

theorem exec_of_no_error {i : Instr} {s : State} (he : i.error s = none) : exec i s = .next (i.effect s) := by
  rw [exec_eq_raiseOr, he]; rfl

theorem onlyReport_raise (k : ErrorKind) (d : Nat) (s : State) : OnlyReport s (raise k d s) k d :=
  ⟨raise_only_report k d s, _, raise_err k d s, rfl, rfl, rfl⟩

/-! ## Jumps (41_control_flow.md R86, R92) -/

theorem onlyPc_setPc (s : State) (p : Word) : OnlyPc s { s with pc := p } := ⟨rfl, fun _ => rfl⟩

theorem zext16_toNat (nnn : Addr12) : (zext16 nnn).toNat = nnn.toNat :=
  BitVec.toNat_setWidth_of_le (by decide)

/-- The sum of an address and a byte never wraps (the spec's decision D15). -/
theorem offsetTarget_toNat (nnn : Addr12) (v0 : Byte) : (offsetTarget nnn v0).toNat = nnn.toNat + v0.toNat := by
  have := nnn.isLt
  have := v0.isLt
  rw [offsetTarget, BitVec.toNat_add_of_lt] <;> rw [zext16_toNat, BitVec.toNat_setWidth_of_le (by decide)]
  omega

/-- Settles O21: an address keeps its value in 16 bits. -/
theorem jumpSetsPc : Obligations.JumpSetsPc :=
  fun nnn s => ⟨_, exec_of_no_error rfl, zext16_toNat nnn, onlyPc_setPc s _⟩

/-- Settles O22: the sum does not wrap, and 0xFFF + 0xFF is 0x10FE. -/
theorem offsetJumpIsTheFullSum : Obligations.OffsetJumpIsTheFullSum := by
  intro nnn s
  have hsum := offsetTarget_toNat nnn (s.getV 0)
  have hle : (offsetTarget nnn (s.getV 0)).toNat ≤ 0x10FE := by
    have := nnn.isLt
    have := (s.getV 0).isLt
    omega
  exact ⟨_, exec_of_no_error rfl, hsum, hle, onlyPc_setPc s _⟩

/-! ## Skips (41_control_flow.md R88 to R91) -/

theorem onlyPc_skipIf (s : State) (c : Bool) : OnlyPc s (s.skipIf c) := by
  rw [skipIf_eq]; exact onlyPc_setPc s _

/-- A skip on equal values. -/
theorem skipIf_beq_pc (s : State) (a b : Byte) : (s.skipIf (a == b)).pc = if a = b then s.pc + 2 else s.pc := by
  rw [skipIf_pc]; simp only [beq_iff_eq]

/-- A skip on different values. -/
theorem skipIf_bne_pc (s : State) (a b : Byte) : (s.skipIf (a != b)).pc = if a = b then s.pc else s.pc + 2 := by
  rw [skipIf_pc]; simp only [bne_iff_ne, ite_not]

/-- Settles O23: each of the four is `skipIf` of its condition. -/
theorem skipsFollowTheirCondition : Obligations.SkipsFollowTheirCondition :=
  fun _ _ _ s =>
    ⟨⟨_, exec_of_no_error rfl, skipIf_beq_pc s _ _, onlyPc_skipIf s _⟩,
      ⟨_, exec_of_no_error rfl, skipIf_bne_pc s _ _, onlyPc_skipIf s _⟩,
      ⟨_, exec_of_no_error rfl, skipIf_beq_pc s _ _, onlyPc_skipIf s _⟩,
      ⟨_, exec_of_no_error rfl, skipIf_bne_pc s _ _, onlyPc_skipIf s _⟩⟩

/-! ## Calls and returns (41_control_flow.md R85, R87)

With `j` the index of a stack entry, SP is `j.castSucc` where `j` is the first entry not in use, and `j.succ` where it is
the last in use: CALL goes from the one to the other, RET back. -/

section stack
variable {s : State} {j : Fin 16}

/-- CALL stores the advanced pc in the first free entry. -/
theorem exec_call_of_castSucc (nnn : Addr12) (hsp : s.sp = j.castSucc) : exec (.call nnn) s =
    .next { s with stack := s.stack.set j.val s.pc j.isLt, sp := j.succ, pc := zext16 nnn } := by
  have hval : s.sp.val = j.val := congrArg Fin.val hsp
  have he : (Instr.call nnn).error s = none := if_neg (by omega)
  rw [exec_of_no_error he, Instr.effect, hval, setIfInBounds_eq_set j.isLt, hsp, Fin.coeSucc_eq_succ]

/-- RET loads pc from the last entry in use. -/
theorem exec_ret_of_succ (hsp : s.sp = j.succ) :
    exec .ret s = .next { s with sp := j.castSucc, pc := s.stack.get j } := by
  have hval : s.sp.val = j.val + 1 := congrArg Fin.val hsp
  have he : Instr.ret.error s = none := if_neg (by omega)
  have hpop : s.sp - 1 = j.castSucc := by rw [hsp, ← Fin.coeSucc_eq_succ, add_sub_cancel_right]
  rw [exec_of_no_error he, Instr.effect, hpop, fin16_ofNat_eq (Nat.sub_eq_of_eq_add hval)]

end stack

/-- The stack after a push: the new word in its entry, every other entry as before. -/
theorem get_set_stack (stack : Vector Word 16) (j k : Fin 16) (w : Word) :
    (stack.set j.val w j.isLt).get k = if k.val = j.val then w else stack.get k := by
  rw [Vector.get_eq_getElem, Vector.getElem_set]
  exact if_congr eq_comm rfl rfl

/-- Settles O24: `exec_call_of_castSucc` with room on the stack, the raised error without. -/
theorem callPushesOrOverflows : Obligations.CallPushesOrOverflows := by
  intro nnn s
  refine ⟨fun hroom => ?_, fun hfull => ?_⟩
  · exact ⟨_, exec_call_of_castSucc (j := ⟨s.sp.val, hroom⟩) nnn rfl, rfl, zext16_toNat nnn,
      fun k => get_set_stack s.stack ⟨s.sp.val, hroom⟩ k s.pc, rfl, fun _ => rfl⟩
  · exact ⟨_, exec_of_error (if_pos hfull), onlyReport_raise .stackOverflow 16 s⟩

/-- Settles O25: `exec_ret_of_succ` with an entry in use, the raised error without. -/
theorem returnPopsOrUnderflows : Obligations.ReturnPopsOrUnderflows := by
  intro s
  refine ⟨fun j hsp => ?_, fun hempty => ?_⟩
  · exact ⟨_, exec_ret_of_succ (Fin.ext hsp), rfl, rfl, rfl, fun _ => rfl⟩
  · exact ⟨_, exec_of_error (if_pos hempty), onlyReport_raise .stackUnderflow 0 s⟩

/-- Settles O26: the return pops the entry that the call pushed. -/
theorem callThenReturnComesBack : Obligations.CallThenReturnComesBack := by
  intro nnn s hroom
  obtain ⟨j, hsp⟩ : ∃ j : Fin 16, s.sp = j.castSucc := ⟨⟨s.sp.val, hroom⟩, rfl⟩
  have hpop : (s.stack.set j.val s.pc j.isLt).get j = s.pc := (get_set_stack ..).trans (if_pos rfl)
  refine ⟨_, _, exec_call_of_castSucc nnn hsp, exec_ret_of_succ rfl, hpop, hsp.symm, ?_⟩
  rw [hpop, ← hsp]

end Sys2Proof.Machine

namespace Sys2Proof.Machine

/-! ## The registers an ALU instruction writes -/

theorem onlyRegs_setV (s : State) (x : Reg) (b : Byte) : OnlyRegs s (s.setV x b) [x] :=
  ⟨fun _ hr => getV_setV_ne s b (List.ne_of_not_mem_cons hr), rfl, fun _ => rfl⟩

theorem onlyRegs_resultThenFlag (x : Reg) (b : Byte) (c : Bool) (s : State) :
    OnlyRegs s (resultThenFlag x b c s) [x, 0xF] := by
  refine ⟨fun r hr => ?_, rfl, fun _ => rfl⟩
  obtain ⟨hx, hf⟩ : r ≠ x ∧ r ≠ vf := by simpa [vf] using hr
  rw [getV_resultThenFlag, if_neg hf, if_neg hx]

theorem onlyRegs_flagThenResult (x y : Reg) (c : Byte → Byte → Bool) (op : Byte → Byte → Byte) (s : State) :
    OnlyRegs s (flagThenResult x y c op s) [x, 0xF] := by
  refine ⟨fun r hr => ?_, flagThenResult_only_v x y c op s, readByte_congr (by simp) (by simp)⟩
  obtain ⟨hx, hf⟩ : r ≠ x ∧ r ≠ vf := by simpa [vf] using hr
  rw [getV_flagThenResult, if_neg hx, if_neg hf]

/-! ## Flags and results as numbers (42_alu.md R107) -/

theorem flag_toNat (c : Bool) : (flag c).toNat = c.toNat := by cases c <;> rfl

theorem flag_carry (a b : Byte) : flag (carry a b) = if 255 < a.toNat + b.toNat then 1 else 0 := by
  simp only [flag, carry, decide_eq_true_eq]; rfl

theorem flag_above (a b : Byte) : flag (above a b) = if b.toNat < a.toNat then 1 else 0 := by
  simp only [flag, above, decide_eq_true_eq]; rfl

theorem flag_above_toNat (a b : Byte) : (flag (above a b)).toNat = if b.toNat < a.toNat then 1 else 0 := by
  rw [flag_above]; split <;> rfl

theorem flag_lowBit_toNat (a : Byte) : (flag (lowBit a)).toNat = a.toNat % 2 := by
  rw [flag_toNat, lowBit, BitVec.getLsbD, Nat.toNat_testBit, Nat.pow_zero, Nat.div_one]

theorem flag_highBit_toNat (a : Byte) : (flag (highBit a)).toNat = a.toNat / 128 := by
  have := a.isLt
  rw [flag_toNat, highBit, BitVec.getLsbD, Nat.toNat_testBit]; omega

theorem byteSub_toNat (a b : Byte) : (a - b).toNat = (a.toNat + 256 - b.toNat) % 256 := by
  have := b.isLt
  rw [BitVec.toNat_sub]; omega

theorem byteHalf_toNat (a : Byte) : (a >>> 1).toNat = a.toNat / 2 := by
  rw [BitVec.toNat_ushiftRight, Nat.shiftRight_one]

theorem byteDouble_toNat (a : Byte) : (a <<< 1).toNat = a.toNat * 2 % 256 := by
  rw [BitVec.toNat_shiftLeft, Nat.shiftLeft_eq]

/-! ## Loads, logic and ADD (42_alu.md R93, R94, R97 to R101) -/

/-- Settles O27: each of the six is one `setV`. -/
theorem loadsAndLogicWriteOneRegister : Obligations.LoadsAndLogicWriteOneRegister := by
  intro x y kk s
  have hsum : ((s.setV x (s.getV x + kk)).getV x).toNat = ((s.getV x).toNat + kk.toNat) % 256 := by
    rw [getV_setV_self, BitVec.toNat_add]
  exact ⟨⟨_, exec_of_no_error rfl, getV_setV_self .., onlyRegs_setV ..⟩,
    ⟨_, exec_of_no_error rfl, hsum, onlyRegs_setV ..⟩,
    ⟨_, exec_of_no_error rfl, getV_setV_self .., onlyRegs_setV ..⟩,
    ⟨_, exec_of_no_error rfl, getV_setV_self .., onlyRegs_setV ..⟩,
    ⟨_, exec_of_no_error rfl, getV_setV_self .., onlyRegs_setV ..⟩,
    ⟨_, exec_of_no_error rfl, getV_setV_self .., onlyRegs_setV ..⟩⟩

theorem getV_resultThenFlag_flag (x : Reg) (b : Byte) (c : Bool) (s : State) :
    (resultThenFlag x b c s).getV 0xF = flag c :=
  (getV_resultThenFlag ..).trans (if_pos rfl)

theorem getV_resultThenFlag_result {x : Reg} (hx : x ≠ 0xF) (b : Byte) (c : Bool) (s : State) :
    (resultThenFlag x b c s).getV x = b :=
  (getV_resultThenFlag ..).trans ((if_neg hx).trans (if_pos rfl))

/-- Settles O28: VF is written last, so that it holds the carry whatever x is. -/
theorem addWritesSumThenCarry : Obligations.AddWritesSumThenCarry := by
  intro x y s
  refine ⟨_, exec_of_no_error rfl, ?_, fun hx => ?_, onlyRegs_resultThenFlag ..⟩
  · rw [Instr.effect, getV_resultThenFlag_flag, flag_carry]
  · rw [Instr.effect, getV_resultThenFlag_result hx, BitVec.toNat_add]

/-! ## The flag-first instructions (42_alu.md R95, R96, R102 to R105)

The flag is the same under both readings; the result is the operation on `resultOperand`. -/

section meanings
variable (x y : Reg) (s : State)

theorem exec_sub : exec (.sub x y) s = .next (flagThenResult x y above (fun a b => a - b) s) :=
  exec_of_no_error rfl

theorem exec_subn : exec (.subn x y) s = .next (flagThenResult x y (fun a b => above b a) (fun a b => b - a) s) :=
  exec_of_no_error rfl

theorem exec_shr : exec (.shr x y) s = .next (flagThenResult x x (fun a _ => lowBit a) (fun a _ => a >>> 1) s) :=
  exec_of_no_error rfl

theorem exec_shl : exec (.shl x y) s = .next (flagThenResult x x (fun a _ => highBit a) (fun a _ => a <<< 1) s) :=
  exec_of_no_error rfl

end meanings

section flagFirst
variable {x y : Reg} {c : Byte → Byte → Bool} {op : Byte → Byte → Byte} {s : State}

theorem getV_flagThenResult_flag (hx : x ≠ 0xF) :
    (flagThenResult x y c op s).getV 0xF = flag (c (s.getV x) (s.getV y)) := by
  rw [getV_flagThenResult, if_neg hx.symm]; exact if_pos rfl

theorem getV_flagThenResult_latched (h : s.cfg.vfReading = .latched) :
    (flagThenResult x y c op s).getV x = op (s.getV x) (s.getV y) := by
  rw [getV_flagThenResult, if_pos rfl, resultOperand_latched h, resultOperand_latched h]

/-- No operand is VF: the result of `latched`. -/
theorem getV_flagThenResult_sequential_ne (h : s.cfg.vfReading = .sequential) (hx : x ≠ 0xF) (hy : y ≠ 0xF) :
    (flagThenResult x y c op s).getV x = op (s.getV x) (s.getV y) := by
  rw [getV_flagThenResult, if_pos rfl, resultOperand_sequential_ne h _ hx, resultOperand_sequential_ne h _ hy]

/-- The first operand alone is VF. -/
theorem getV_flagThenResult_sequential_left (h : s.cfg.vfReading = .sequential) (hx : x = 0xF) (hy : y ≠ 0xF) :
    (flagThenResult x y c op s).getV x = op (flag (c (s.getV x) (s.getV y))) (s.getV y) := by
  subst hx
  rw [getV_flagThenResult, if_pos rfl, resultOperand_sequential_vf h, resultOperand_sequential_ne h _ hy]

/-- The second operand alone is VF. -/
theorem getV_flagThenResult_sequential_right (h : s.cfg.vfReading = .sequential) (hx : x ≠ 0xF) (hy : y = 0xF) :
    (flagThenResult x y c op s).getV x = op (s.getV x) (flag (c (s.getV x) (s.getV y))) := by
  subst hy
  rw [getV_flagThenResult, if_pos rfl, resultOperand_sequential_ne h _ hx, resultOperand_sequential_vf h]

/-- Both operands are VF. -/
theorem getV_flagThenResult_sequential_both (h : s.cfg.vfReading = .sequential) (hx : x = 0xF) (hy : y = 0xF) :
    (flagThenResult x y c op s).getV x =
      op (flag (c (s.getV x) (s.getV y))) (flag (c (s.getV x) (s.getV y))) := by
  subst hx hy
  rw [getV_flagThenResult, if_pos rfl, resultOperand_sequential_vf h]

/-- A difference of two VF is 0 before and after the flag write, so that the readings differ only where exactly one
operand is VF. -/
theorem getV_flagThenResult_sequential_agree (h : s.cfg.vfReading = .sequential) (hop : ∀ a, op a a = 0)
    (hxy : x = 0xF ↔ y = 0xF) : (flagThenResult x y c op s).getV x = op (s.getV x) (s.getV y) := by
  by_cases hx : x = 0xF
  · have hy := hxy.1 hx
    rw [getV_flagThenResult_sequential_both h hx hy, hop, hx, hy, hop]
  · exact getV_flagThenResult_sequential_ne h hx (mt hxy.2 hx)

/-- The rows of the table of R96 for an operation on two registers, with `cn` its flag and `opn` its result as numbers. -/
theorem flagThenResult_sequential_table {cn opn : Nat → Nat → Nat} (h : s.cfg.vfReading = .sequential)
    (hc : ∀ a b, (flag (c a b)).toNat = cn a.toNat b.toNat) (hop : ∀ a b, (op a b).toNat = opn a.toNat b.toNat)
    (hself : ∀ a, op a a = 0) :
    let t := flagThenResult x y c op s
    let a := (s.getV x).toNat
    let b := (s.getV y).toNat
    (x ≠ 0xF → (t.getV 0xF).toNat = cn a b) ∧
    (x = 0xF → y ≠ 0xF → (t.getV x).toNat = opn (cn a b) b) ∧
    (x ≠ 0xF → y = 0xF → (t.getV x).toNat = opn a (cn a b)) ∧
    ((x = 0xF ↔ y = 0xF) → (t.getV x).toNat = opn a b) := by
  refine ⟨fun hx => ?_, fun hx hy => ?_, fun hx hy => ?_, fun hxy => ?_⟩
  · rw [getV_flagThenResult_flag hx, hc]
  · rw [getV_flagThenResult_sequential_left h hx hy, hop, hc]
  · rw [getV_flagThenResult_sequential_right h hx hy, hop, hc]
  · rw [getV_flagThenResult_sequential_agree h hself hxy, hop]

end flagFirst

/-- Settles O29: the minuend is the first operand of `above` in both. -/
theorem subtractionsWriteFlagThenDifference : Obligations.SubtractionsWriteFlagThenDifference := by
  intro x y s h
  refine ⟨⟨_, exec_sub x y s, ?_, fun hx => ?_, onlyRegs_flagThenResult ..⟩,
    ⟨_, exec_subn x y s, ?_, fun hx => ?_, onlyRegs_flagThenResult ..⟩⟩
  · rw [getV_flagThenResult_latched h, byteSub_toNat]
  · rw [getV_flagThenResult_flag hx, flag_above]
  · rw [getV_flagThenResult_latched h, byteSub_toNat]
  · rw [getV_flagThenResult_flag hx, flag_above]

/-- Settles O30: both operands of the shift are V[x], whatever y is. -/
theorem shiftsWriteLostBitThenResult : Obligations.ShiftsWriteLostBitThenResult := by
  intro x y s h
  refine ⟨⟨_, exec_shr x y s, ?_, fun hx => ?_, onlyRegs_flagThenResult ..⟩,
    ⟨_, exec_shl x y s, ?_, fun hx => ?_, onlyRegs_flagThenResult ..⟩⟩
  · rw [getV_flagThenResult_latched h, byteHalf_toNat]
  · rw [getV_flagThenResult_flag hx, flag_lowBit_toNat]
  · rw [getV_flagThenResult_latched h, byteDouble_toNat]
  · rw [getV_flagThenResult_flag hx, flag_highBit_toNat]

/-- Settles O31: the table of R96 for the two differences; both operands of a shift are V[x]. -/
theorem sequentialReadingSeesTheFlag : Obligations.SequentialReadingSeesTheFlag := by
  intro x y s h a b
  refine ⟨⟨_, exec_sub x y s, ?sub, onlyRegs_flagThenResult ..⟩,
    ⟨_, exec_subn x y s, ?subn, onlyRegs_flagThenResult ..⟩,
    ⟨_, exec_shr x y s, fun hx => ?shrVf, fun hx => ⟨?shr, ?shrFlag⟩, onlyRegs_flagThenResult ..⟩,
    ⟨_, exec_shl x y s, fun hx => ?shlVf, fun hx => ⟨?shl, ?shlFlag⟩, onlyRegs_flagThenResult ..⟩⟩
  case sub =>
    exact flagThenResult_sequential_table (cn := fun m n => if n < m then 1 else 0)
      (opn := fun m n => (m + 256 - n) % 256)
      h flag_above_toNat byteSub_toNat BitVec.sub_self
  case subn =>
    exact flagThenResult_sequential_table (cn := fun m n => if m < n then 1 else 0)
      (opn := fun m n => (n + 256 - m) % 256)
      h (fun m n => flag_above_toNat n m) (fun m n => byteSub_toNat n m) BitVec.sub_self
  case shrVf =>
    rw [getV_flagThenResult_sequential_both h hx hx, byteHalf_toNat, flag_lowBit_toNat]; omega
  case shr => rw [getV_flagThenResult_sequential_ne h hx hx, byteHalf_toNat]
  case shrFlag => rw [getV_flagThenResult_flag hx, flag_lowBit_toNat]
  case shlVf =>
    rw [getV_flagThenResult_sequential_both h hx hx, byteDouble_toNat, flag_highBit_toNat]
  case shl => rw [getV_flagThenResult_sequential_ne h hx hx, byteDouble_toNat]
  case shlFlag => rw [getV_flagThenResult_flag hx, flag_highBit_toNat]

/-! ## The random byte (42_alu.md R106) -/

theorem rndByte_of_some {s : State} {b : Byte} (h : s.rndIn = some b) : s.rndByte = b := by
  simp only [State.rndByte, h]

theorem rndByte_of_none {s : State} (h : s.rndIn = none) : s.rndByte = Config.freeRnd s.draws := by
  simp only [State.rndByte, h]

theorem takeRnd_of_none {s : State} (h : s.rndIn = none) : s.takeRnd = { s with draws := s.draws + 1 } := by
  rw [State.takeRnd, ← h]

/-- Settles O32: RND is one `setV` after the byte is taken. -/
theorem randomAndImmediate : Obligations.RandomAndImmediate := by
  intro x kk s
  refine ⟨fun b hb => ⟨_, exec_of_no_error rfl, ?_, fun r hr => getV_setV_ne s.takeRnd _ hr, rfl, fun _ => rfl⟩,
    fun hb => ⟨_, exec_of_no_error rfl, ?_, fun r hr => getV_setV_ne s.takeRnd _ hr, ?_, fun _ => rfl⟩⟩
  · rw [Instr.effect, getV_setV_self, rndByte_of_some hb]
  · rw [Instr.effect, getV_setV_self, rndByte_of_none hb]
  · rw [Instr.effect, takeRnd_of_none hb]; rfl

end Sys2Proof.Machine

namespace Sys2Proof.Machine

/-! ## The index register (43_index_memory.md R108 to R110) -/

theorem onlyIndex_setI (s : State) (w : Word) : OnlyIndex s { s with i := w } := ⟨rfl, fun _ => rfl⟩

theorem indexSum_toNat (i : Word) (b : Byte) : (indexSum i b).toNat = (i.toNat + b.toNat) % 4096 := by
  rw [indexSum, BitVec.toNat_ofNat]; omega

theorem glyphAddr_toNat {d : Nat} (h : d ≤ 15) : (glyphAddr d).toNat = 0x050 + 5 * d := by
  rw [glyphAddr, BitVec.toNat_ofNat]; omega

/-- Settles O33: neither instruction has an error, and each writes I alone. -/
theorem indexLoadAndAdd : Obligations.IndexLoadAndAdd :=
  fun nnn _ s => ⟨⟨_, exec_of_no_error rfl, zext16_toNat nnn, onlyIndex_setI s _⟩,
    ⟨_, exec_of_no_error rfl, indexSum_toNat s.i _, onlyIndex_setI s _⟩⟩

/-- Settles O34: the glyph's address for a digit, the raised error above 15. -/
theorem fontAddressOfADigit : Obligations.FontAddressOfADigit := by
  intro x s
  refine ⟨fun hdigit => ?_, fun hlarge => ?_⟩
  · exact ⟨_, exec_of_no_error (if_neg (Nat.not_lt.2 hdigit)), glyphAddr_toNat hdigit, onlyIndex_setI s _⟩
  · exact ⟨_, exec_of_error (if_pos hlarge), onlyReport_raise ..⟩

/-! ## Stores that are allowed (43_index_memory.md R111, R112) -/

/-- What an allowed BCD store leaves (43_index_memory.md R111). -/
theorem exec_ldBVx_of_storeAllowed {x : Reg} {s : State} (h : s.StoreAllowed 3) :
    exec (.ldBVx x) s = .next (s.writeBytes s.i.toNat (bcdDigits (s.getV x))) :=
  exec_of_no_error (storeError_of_storeAllowed h)

/-- After an allowed BCD store the byte at I + k is the k-th digit (43_index_memory.md R111). -/
theorem readByte_bcd {s : State} {b : Byte} {k d : Nat} (h : s.StoreAllowed 3)
    (hk : (bcdDigits b)[k]? = some (BitVec.ofNat 8 d)) (hd : d < 256) :
    ((s.writeBytes s.i.toNat (bcdDigits b)).readByte (s.i.toNat + k)).toNat = d := by
  obtain ⟨hlt, hdigit⟩ := List.getElem?_eq_some_iff.1 hk
  have hlen : (bcdDigits b).length = 3 := rfl
  have hrange : s.i.toNat + 3 ≤ memSize := h.1
  rw [readByte_writeBytes_getElem hlt (by omega), hdigit, BitVec.toNat_ofNat, Nat.mod_eq_of_lt hd]

/-- Settles O35: the three digits by `readByte_bcd`, each a byte because V[x] is one. -/
theorem bcdStoresThreeDigits : Obligations.BcdStoresThreeDigits := by
  intro x s hall
  have hbyte := (s.getV x).isLt
  exact ⟨_, exec_ldBVx_of_storeAllowed hall, readByte_bcd (k := 0) hall rfl (by omega),
    readByte_bcd hall rfl (by omega), readByte_bcd hall rfl (by omega), onlyBytes_writeBytes ..⟩

/-- A dump writes x + 1 bytes and no other. -/
theorem onlyBytes_dump (x : Reg) (s : State) :
    OnlyBytes s (s.writeBytes s.i.toNat ((regsUpTo x).map s.getV)) s.i.toNat (x.val + 1) := by
  have hbytes := onlyBytes_writeBytes s s.i.toNat ((regsUpTo x).map s.getV)
  rwa [List.length_map, regsUpTo_length] at hbytes

/-- Settles O36: the stored registers by `readByte_dump`, the frame by the number of bytes a dump writes. -/
theorem registerDumpStoresEveryRegister : Obligations.RegisterDumpStoresEveryRegister :=
  fun x s hall => ⟨_, exec_ldMemVx_of_storeAllowed hall, fun _ hr => readByte_dump hall hr, onlyBytes_dump x s⟩

/-! ## Stores that are not allowed (20_memory.md R49, R50, 60_exceptions.md R133) -/

/-- The check of Fx33 is that of a store of 3 bytes, the check of Fx55 that of x + 1 bytes. -/
theorem error_of_store {x : Reg} {i : Instr} {n : Nat} (s : State)
    (hi : (i = .ldBVx x ∧ n = 3) ∨ (i = .ldMemVx x ∧ n = x.val + 1)) : 0 < n ∧ i.error s = s.storeError n := by
  obtain ⟨rfl, rfl⟩ | ⟨rfl, rfl⟩ := hi
  · exact ⟨by decide, rfl⟩
  · exact ⟨Nat.succ_pos _, rfl⟩

section storeError
variable {s : State} {n : Nat}

theorem storeError_of_range (hn : 0 < n) (hpast : 0x1000 < s.i.toNat + n) :
    s.storeError n = some (.memoryOutOfRange, max s.i.toNat 0x1000) :=
  if_pos ⟨hn, hpast⟩

theorem storeError_of_font (hn : 0 < n) (hrange : s.i.toNat + n ≤ 0x1000) (hp : s.cfg.fontWrite = .fault)
    (hlo : 0x050 < s.i.toNat + n) (hhi : s.i.toNat < 0x0A0) :
    s.storeError n = some (.fontWriteViolation, max s.i.toNat 0x050) := by
  rw [State.storeError, if_neg (by omega), if_pos ⟨hp, hn, hhi, hlo⟩]

end storeError

/-- Settles O37: the store's check in its two failing branches, each with the raised error alone. -/
theorem storesFailWhole : Obligations.StoresFailWhole := by
  intro x s i n hi
  obtain ⟨hn, he⟩ := error_of_store s hi
  refine ⟨fun hpast => ?_, fun hrange hp hlo hhi => ?_⟩
  · exact ⟨_, exec_of_error (he.trans (storeError_of_range hn hpast)), onlyReport_raise ..⟩
  · exact ⟨_, exec_of_error (he.trans (storeError_of_font hn hrange hp hlo hhi)), onlyReport_raise ..⟩

/-! ## Register loads (43_index_memory.md R113, R114) -/

/-- What a load inside memory leaves (43_index_memory.md R113). -/
theorem exec_ldVxMem_of_range {x : Reg} {s : State} (h : s.i.toNat + x.val ≤ 0xFFF) :
    exec (.ldVxMem x) s = .next ((Instr.ldVxMem x).effect s) :=
  exec_of_no_error (if_neg (by omega))

/-- The effect of a load on V[0..x] (43_index_memory.md R113). -/
theorem getV_load {x r : Reg} (s : State) (hr : r ≤ x) :
    ((Instr.ldVxMem x).effect s).getV r = s.readByte (s.i.toNat + r.val) :=
  (getV_foldl_setV ..).trans (if_pos (mem_regsUpTo.2 hr))

/-- A load leaves the registers above x (10_state.md R22). -/
theorem getV_load_of_lt {x r : Reg} (s : State) (hr : x < r) : ((Instr.ldVxMem x).effect s).getV r = s.getV r :=
  getV_effect (decide_eq_false (not_le.2 hr))

/-- A load changes the registers alone. -/
theorem load_only_v (x : Reg) (s : State) :
    (Instr.ldVxMem x).effect s = { s with v := ((Instr.ldVxMem x).effect s).v } :=
  foldl_setV_only_v ..

/-- Settles O38: the loaded and the higher registers by the effect of a load, the raised error past 0xFFF. -/
theorem registerLoadReadsEveryRegister : Obligations.RegisterLoadReadsEveryRegister := by
  intro x s
  refine ⟨fun hrange => ?_, fun hpast => ?_⟩
  · have hmem : SameMemory s ((Instr.ldVxMem x).effect s) := by rw [load_only_v]; exact fun _ => rfl
    exact ⟨_, exec_ldVxMem_of_range hrange, fun _ => getV_load s, fun _ => getV_load_of_lt s, load_only_v x s, hmem⟩
  · exact ⟨_, exec_of_error (if_pos (by omega)), onlyReport_raise ..⟩

/-- Settles O39: the dump leaves I, so the load reads the dumped bytes, which do not depend on the registers in
between. -/
theorem dumpThenLoadRestoresRegisters : Obligations.DumpThenLoadRestoresRegisters := by
  intro x s hall
  refine ⟨_, exec_ldMemVx_of_storeAllowed hall, fun between => ?_⟩
  have hi : (s.writeBytes s.i.toNat ((regsUpTo x).map s.getV)).i = s.i := writeBytes_i ..
  have hrange : s.i.toNat + (x.val + 1) ≤ 0x1000 := hall.1
  refine ⟨_, exec_ldVxMem_of_range (by simp only [hi]; omega), fun r hr => ?_⟩
  rw [getV_load _ hr, hi]
  exact readByte_dump hall hr

end Sys2Proof.Machine

namespace Sys2Proof.Machine

/-! ## Who writes the screen (44_display.md R120) -/

section screen
@[simp] theorem writeBytes_fb (s : State) (base : Nat) (bs : List Byte) : (s.writeBytes base bs).fb = s.fb := by
  rw [writeBytes_only_mem]
@[simp] theorem writeBytes_frameReady (s : State) (base : Nat) (bs : List Byte) :
    (s.writeBytes base bs).frameReady = s.frameReady := by rw [writeBytes_only_mem]
@[simp] theorem foldl_setV_fb (f : Reg → Byte) (rs : List Reg) (s : State) :
    (rs.foldl (fun t q => t.setV q (f q)) s).fb = s.fb := by rw [foldl_setV_only_v]
@[simp] theorem foldl_setV_frameReady (f : Reg → Byte) (rs : List Reg) (s : State) :
    (rs.foldl (fun t q => t.setV q (f q)) s).frameReady = s.frameReady := by rw [foldl_setV_only_v]
end screen

/-- The framebuffer is written by 00E0 and Dxyn alone, frameReady by Dxyn alone. -/
theorem effect_screen (i : Instr) (s : State) :
    ((i.effect s).fb = s.fb ∧ (i.effect s).frameReady = s.frameReady) ∨
      (i = .cls ∧ (i.effect s).frameReady = s.frameReady) ∨ ∃ x y n, i = .drw x y n := by
  cases i
  case cls => exact .inr (.inl ⟨rfl, rfl⟩)
  case drw x y n => exact .inr (.inr ⟨x, y, n, rfl⟩)
  case ldVxK x => cases h : lowestPressed s.key <;> simp [Instr.effect, h]
  all_goals exact .inl (by simp [Instr.effect])

/-- Settles O15: an error step writes no screen, and an instruction that raises none writes it by `effect_screen`. -/
theorem onlyDisplayInstructionsWriteTheScreen : Obligations.OnlyDisplayInstructionsWriteTheScreen := by
  intro s t h
  obtain ⟨-, rfl⟩ | ⟨-, -, k, d, rfl⟩ | ⟨hpc, i, hd, -, rfl⟩ := step_outcome h
  · exact ⟨absurd rfl, absurd rfl⟩
  · exact ⟨absurd rfl, absurd rfl⟩
  · obtain ⟨hfb, hfr⟩ | ⟨rfl, hfr⟩ | ⟨x, y, n, rfl⟩ := effect_screen i s.fetched
    · exact ⟨absurd hfb, absurd hfr⟩
    · exact ⟨fun _ => ⟨hpc, .inl hd⟩, absurd hfr⟩
    · exact ⟨fun _ => ⟨hpc, .inr ⟨x, y, n, hd⟩⟩, fun _ => ⟨hpc, ⟨x, y, n, hd⟩, rfl⟩⟩

/-- Settles O42: the cleared framebuffer is the effect. -/
theorem clearTurnsEveryCellOff : Obligations.ClearTurnsEveryCellOff :=
  fun _ => ⟨_, exec_of_no_error rfl, cell_clear, rfl, fun _ => rfl⟩

/-! ## Draws that stay in memory (44_display.md R116 to R118) -/

theorem flag_eq_one {c : Bool} : flag c = 1 ↔ c = true := by cases c <;> decide

theorem flag_eq_zero {c : Bool} : flag c = 0 ↔ c = false := by cases c <;> decide

/-- What a draw inside memory leaves (44_display.md R116). -/
theorem exec_drw_of_range {n : Fin 16} {s : State} (x y : Reg) (h : n.val = 0 ∨ s.i.toNat + n.val ≤ 0x1000) :
    exec (.drw x y n) s = .next ((Instr.drw x y n).effect s) :=
  exec_of_no_error (if_neg (by omega))

section draw
variable (x y : Reg) (n : Fin 16) (s : State)

theorem cell_draw (cx : Fin 64) (cy : Fin 32) :
    ((Instr.drw x y n).effect s).fb.cell cx cy = (s.fb.cell cx cy ^^ s.covers x y n.val cx cy) :=
  drawn_cell s x y n.val n.isLt cx cy

/-- VF after a draw is the collision flag, also where x or y is VF (44_display.md R118). -/
theorem getV_draw_vf : ((Instr.drw x y n).effect s).getV 0xF = flag (s.drawn x y n.val).coll :=
  getV_setV_self ..

/-- VF = 1 after a draw exactly where a covered cell was on (44_display.md R118). -/
theorem getV_draw_eq_one_iff : ((Instr.drw x y n).effect s).getV 0xF = 1 ↔
    ∃ cx cy, s.covers x y n.val cx cy = true ∧ s.fb.cell cx cy = true := by
  rw [getV_draw_vf, flag_eq_one, drawn_coll s x y n.val n.isLt]

theorem getV_draw_eq_zero (h : ∀ cx cy, s.covers x y n.val cx cy = true → s.fb.cell cx cy = false) :
    ((Instr.drw x y n).effect s).getV 0xF = 0 := by
  rw [getV_draw_vf, flag_eq_zero, Bool.eq_false_iff, ne_eq, drawn_coll s x y n.val n.isLt]
  rintro ⟨cx, cy, hc, hon⟩
  exact Bool.false_ne_true ((h cx cy hc).symm.trans hon)

theorem getV_draw_ne {r : Reg} (hr : r ≠ 0xF) : ((Instr.drw x y n).effect s).getV r = s.getV r :=
  getV_effect (beq_false_of_ne hr)

end draw

/-- Settles O43: the cells by `cell_draw`, VF by the collision, and the raised error past 0xFFF. -/
theorem drawTogglesExactlyTheCoveredCells : Obligations.DrawTogglesExactlyTheCoveredCells := by
  intro x y n s
  refine ⟨fun hrange => ?_, fun hn hpast => ?_⟩
  · exact ⟨_, exec_drw_of_range x y hrange, cell_draw x y n s, (getV_draw_eq_one_iff x y n s).2,
      getV_draw_eq_zero x y n s, rfl, fun _ => getV_draw_ne x y n s, rfl, fun _ => rfl⟩
  · exact ⟨_, exec_of_error (if_pos ⟨Nat.pos_of_ne_zero hn, hpast⟩), onlyReport_raise ..⟩

/-! ## The same sprite drawn twice (44_display.md R119) -/

/-- Which cells a sprite covers is given by I, its bytes, the parameters and the base position. -/
theorem covers_congr {s t : State} {x y x' y' : Reg} {n : Nat} (hi : t.i = s.i) (hcfg : t.cfg = s.cfg)
    (hbytes : ∀ k, k < n → t.readByte (s.i.toNat + k) = s.readByte (s.i.toNat + k))
    (hx : (t.getV x').toNat % 64 = (s.getV x).toNat % 64) (hy : (t.getV y').toNat % 32 = (s.getV y).toNat % 32)
    (cx : Fin 64) (cy : Fin 32) : t.covers x' y' n cx cy = s.covers x y n cx cy := by
  unfold State.covers
  rw [hi, hcfg, hx, hy]
  split
  · next c r _ _ =>
    by_cases hr : r < n
    · rw [hbytes r hr]
    · simp only [hr, decide_false, Bool.and_false, Bool.false_and]
  · rfl

/-- Settles O44: the second draw covers the same cells (`covers_congr`), and a toggled cell toggles back. -/
theorem drawingTwiceRestoresTheScreen : Obligations.DrawingTwiceRestoresTheScreen := by
  intro x y x' y' n s hrange
  refine ⟨_, exec_drw_of_range x y hrange, fun t hfb hi hcfg hbytes hx hy => ?_⟩
  have hcovers := covers_congr hi hcfg hbytes hx hy
  have hcell (cx cy) : t.fb.cell cx cy = (s.fb.cell cx cy ^^ s.covers x y n.val cx cy) := by
    rw [hfb, cell_draw]
  refine ⟨_, exec_drw_of_range x' y' (hi ▸ hrange), fb_ext fun cx cy => ?_, ?_⟩
  · rw [cell_draw, hcovers, hcell, Bool.xor_assoc, Bool.xor_self, Bool.xor_false]
  · rw [getV_draw_eq_one_iff]
    refine exists₂_congr fun cx cy => ?_
    rw [hcovers, hcell]
    refine and_congr_right fun hc => ?_
    rw [hc, Bool.xor_true, Bool.not_eq_true']

end Sys2Proof.Machine

namespace Sys2Proof.Machine

/-! ## The skips on a key (45_keypad_timers.md R121, R122) -/

/-- With V[x] the number of a key, both skips are `skipIf` of the state of that key. -/
theorem skipOnKey_of_key {x : Reg} {s : State} {k : Key} (hk : (s.getV x).toNat = k.val) (pressed : Bool) :
    skipOnKey x pressed s = s.skipIf (s.key.get k == pressed) := by
  rw [skipOnKey, keyOf_eq_some.2 hk]

section keySkip
variable {x : Reg} {s : State} {k : Key} (hk : (s.getV x).toNat = k.val)
include hk

theorem exec_skp_of_key : exec (.skp x) s = .next (s.skipIf (s.key.get k)) :=
  congrArg Host.Outcome.next ((skipOnKey_of_key hk true).trans (congrArg s.skipIf (beq_true _)))

theorem exec_sknp_of_key : exec (.sknp x) s = .next (s.skipIf (!s.key.get k)) :=
  congrArg Host.Outcome.next ((skipOnKey_of_key hk false).trans (congrArg s.skipIf (beq_false _)))

end keySkip

/-- A skip on the negation of a flag. -/
theorem skipIf_not_pc (s : State) (c : Bool) : (s.skipIf (!c)).pc = if c = true then s.pc else s.pc + 2 := by
  cases c <;> rfl

/-- Settles O45: `skipIf` of the key that V[x] names, the raised error above 15. -/
theorem keySkipsFollowTheKey : Obligations.KeySkipsFollowTheKey := by
  intro x s
  refine ⟨fun k hk => ?_, fun hlarge => ?_⟩
  · exact ⟨⟨_, exec_skp_of_key hk, skipIf_pc .., onlyPc_skipIf ..⟩,
      ⟨_, exec_sknp_of_key hk, skipIf_not_pc .., onlyPc_skipIf ..⟩⟩
  · exact ⟨⟨_, exec_of_error (if_pos hlarge), onlyReport_raise ..⟩,
      ⟨_, exec_of_error (if_pos hlarge), onlyReport_raise ..⟩⟩

/-! ## The wait for a key (45_keypad_timers.md R124) -/

/-- A pressed key with no pressed key below it is the one that Fx0A takes. -/
theorem lowestPressed_of_lowest {key : Vector Bool 16} {k : Key} (hk : key.get k = true)
    (hlow : ∀ j, j < k → key.get j = false) : lowestPressed key = some k := by
  cases h : lowestPressed key with
  | none => exact absurd (lowestPressed_eq_none.1 h k) (by simp [hk])
  | some l =>
    obtain ⟨hl, hbelow⟩ := lowestPressed_eq_some h
    have hkl : ¬ k < l := fun hlt => by simp [hbelow k hlt] at hk
    have hlk : ¬ l < k := fun hlt => by simp [hlow l hlt] at hl
    rw [le_antisymm (not_lt.1 hkl) (not_lt.1 hlk)]

/-- Fx0A with a key pressed (45_keypad_timers.md R124). -/
theorem exec_ldVxK_of_some {s : State} {k : Key} (x : Reg) (h : lowestPressed s.key = some k) :
    exec (.ldVxK x) s = .next (s.setV x (BitVec.ofNat 8 k.val)) := by
  rw [exec_of_no_error rfl, Instr.effect, h, Option.elim_some]

/-- Fx0A with no key pressed: the stall (45_keypad_timers.md R124). -/
theorem exec_ldVxK_of_none {s : State} (x : Reg) (h : lowestPressed s.key = none) :
    exec (.ldVxK x) s = .next { s with pc := s.pc - 2 } := by
  rw [exec_of_no_error rfl, Instr.effect, h, Option.elim_none]

theorem keyByte_toNat (k : Key) : (BitVec.ofNat 8 k.val).toNat = k.val := by
  rw [BitVec.toNat_ofNat]; omega

/-- Settles O46: the key found is the lowest pressed one, and where none is found pc alone is written. -/
theorem waitForKeyTakesTheLowest : Obligations.WaitForKeyTakesTheLowest := by
  intro x s
  refine ⟨fun k hk hlow => ?_, fun hnone => ?_⟩
  · have hval : ((s.setV x (BitVec.ofNat 8 k.val)).getV x).toNat = k.val := by rw [getV_setV_self, keyByte_toNat]
    exact ⟨_, exec_ldVxK_of_some x (lowestPressed_of_lowest hk hlow), hval, onlyRegs_setV ..⟩
  · exact ⟨_, exec_ldVxK_of_none x (lowestPressed_eq_none.2 hnone), rfl, onlyPc_setPc ..⟩

/-! ## The timer moves (45_keypad_timers.md R123, R125, R126) -/

/-- Settles O47: none of the three has an error; one is a `setV`, the others write their timer alone. -/
theorem timerMoves : Obligations.TimerMoves :=
  fun _ _ => ⟨⟨_, exec_of_no_error rfl, getV_setV_self .., onlyRegs_setV ..⟩,
    ⟨_, exec_of_no_error rfl, rfl, rfl, fun _ => rfl⟩,
    ⟨_, exec_of_no_error rfl, rfl, rfl, fun _ => rfl⟩⟩

end Sys2Proof.Machine

namespace Sys2Proof.Machine

/-! ## The errors of a step (60_exceptions.md) -/

/-- An instruction that raises no error leaves the report and the model-only bit of R144. -/
theorem effect_err_faulted {i : Instr} {s : State} (he : i.error s = none) :
    (i.effect s).err = s.err ∧ (i.effect s).faulted = s.faulted := by
  obtain ⟨t, ht, ⟨k, d, hk, -⟩ | ⟨-, herr, hfaulted, -⟩⟩ := exec_cases i s
  · rw [he] at hk; cases hk
  · obtain rfl := Host.Outcome.next.inj ((exec_of_no_error he).symm.trans ht)
    exact ⟨herr, hfaulted⟩

/-- A step whose instruction raises no error reports none, and leaves the model-only bit as it was. -/
theorem effect_fetched_err_faulted {i : Instr} {s : State} (he : i.error s = none) :
    (i.effect s.fetched).endStep.err = none ∧ (i.effect s.fetched).endStep.faulted = s.faulted :=
  effect_err_faulted ((error_fetched i s).trans he)

theorem stepError_of_unfetchable {s : State} (hpc : 0xFFE < s.pc.toNat) :
    s.stepError = some (.memoryOutOfRange, max s.pc.toNat 0x1000) := if_pos hpc

/-- Settles O9: one step equation and one equation of `stepError` per branch of 30_encoding.md R67; a decoded
instruction raises its own error or, where it has none, keeps the empty report of the fetch. -/
theorem stepReportsExactlyTheTableError : Obligations.StepReportsExactlyTheTableError := by
  intro s
  rcases Nat.lt_or_ge 0xFFE s.pc.toNat with hpc | hpc
  · exact ⟨_, step_of_unfetchable hpc, (stepError_of_unfetchable hpc).symm⟩
  · cases hd : decodeWord s.fetchWord with
    | none => exact ⟨_, step_of_unrecognized hpc hd, (stepError_of_unrecognized hpc hd).symm⟩
    | some i =>
      refine ⟨_, step_of_decode hpc hd, ?_⟩
      rw [stepError_of_decode hpc hd]
      cases he : i.error s with
      | none => exact congrArg _ (effect_fetched_err_faulted he).1
      | some e => rfl

/-- Settles O6: a step answers in each branch, an error being a next state (60_exceptions.md R131). -/
theorem everyStepAnswersANextState : Obligations.EveryStepAnswersANextState :=
  fun s => (stepReportsExactlyTheTableError s).imp fun _ h => h.1

/-- Settles O10: the two error cases of `step_outcome` are the state written out, and in the third nothing is reported. -/
theorem errorStepsArePrecise : Obligations.ErrorStepsArePrecise := by
  intro s t h herr
  obtain ⟨hpc, rfl⟩ | ⟨hpc, -, k, d, rfl⟩ | ⟨-, i, -, he, rfl⟩ := step_outcome h
  · rw [if_neg (Nat.not_le_of_lt hpc)]; rfl
  · rw [if_pos hpc]; rfl
  · exact absurd (effect_fetched_err_faulted he).1 herr

/-- Settles O11: the report of the fetch, or by `raise_fetched_err` of what was fetched, or none. -/
theorem reportNamesTheStepAndSetsFaulted : Obligations.ReportNamesTheStepAndSetsFaulted := by
  intro s t h
  obtain ⟨hpc, rfl⟩ | ⟨hpc, -, k, d, rfl⟩ | ⟨-, i, -, he, rfl⟩ := step_outcome h
  · rw [if_neg (Nat.not_le_of_lt hpc)]
    refine ⟨?_, (Bool.or_true _).symm⟩
    rintro e ⟨⟩
    exact ⟨rfl, rfl⟩
  · rw [if_pos hpc, endStep_err, raise_fetched_err]
    refine ⟨?_, (Bool.or_true _).symm⟩
    rintro e ⟨⟩
    exact ⟨rfl, rfl⟩
  · obtain ⟨herr, hfaulted⟩ := effect_fetched_err_faulted he
    rw [herr, hfaulted]
    exact ⟨nofun, (Bool.or_false _).symm⟩

end Sys2Proof.Machine

namespace Sys2Proof.Machine

/-! ## The end of a run (70_reset_and_hazards.md R151) -/

/-- Whether a program has ended is given by pc, memory and the parameters. -/
theorem ended_congr {s t : State} (hpc : t.pc = s.pc) (hmem : t.mem = s.mem) (hcfg : t.cfg = s.cfg) :
    t.Ended ↔ s.Ended := by
  have hword : t.fetchWord = s.fetchWord := by
    simp only [State.fetchWord, State.readWord, State.readByte, hpc, hmem, hcfg]
  rw [State.Ended, State.Ended, hpc, hword]

/-- A self-jump undoes the advance of pc, so its step is the end of a step with an empty report. -/
theorem step_of_ended {s : State} (hs : s.Ended) : step s = .next { s with err := none }.endStep := by
  obtain ⟨hpc, nnn, hd, hself⟩ := hs
  have htarget : zext16 nnn = s.pc := BitVec.eq_of_toNat_eq ((zext16_toNat nnn).trans hself)
  have heffect : (Instr.jp nnn).effect s.fetched = { s with err := none } := by
    rw [Instr.effect, htarget]; rfl
  have herror : (Instr.jp nnn).error s = none := rfl
  rw [step_of_decode hpc hd, herror, heffect]; rfl

/-- Settles O51: the step is that of `step_of_ended`, and it leaves pc, memory and the parameters. -/
theorem endedProgramStaysEnded : Obligations.EndedProgramStaysEnded :=
  fun _ hs => ⟨_, step_of_ended hs, (ended_congr rfl rfl rfl).2 hs, rfl⟩

end Sys2Proof.Machine
